-- ==== Sys2Proof/Word.lean ====
section
/-! DEFINITION. The data types of the spec's data model: bytes, command words, Halves and Blocks, round counts, directions. -/

namespace Sys2Proof

/-- A byte: "8 bits, an unsigned number in 0..255" (00_scope.md R6). -/
abbrev Byte := BitVec 8

/-- A command word (30_encoding.md R80). -/
abbrev Word := BitVec 32

/-- A sequence of exactly `n` bytes, in ascending index (00_scope.md R6). -/
@[ext]
structure Bytes (n : Nat) where
  list : List Byte
  size : list.length = n
deriving DecidableEq, Repr

/-- `s[i]`, the byte at index `i`, the first having index 0 (R6). -/
def Bytes.get {n : Nat} (b : Bytes n) (i : Fin n) : Byte :=
  b.list[i.val]'(by rw [b.size]; exact i.isLt)

/-- `v×n`: the byte `v` repeated `n` times (R6). -/
def Bytes.replicate (n : Nat) (v : Byte) : Bytes n := ⟨List.replicate n v, List.length_replicate⟩

/-- "Half: 64 contiguous bytes" (10_state.md R22; HALF_BYTES of R5). -/
abbrev Half := Bytes 64

/-- "Block: exactly 128 bytes" (10_state.md R21; BLOCK_BYTES of R5). -/
abbrev Block := Bytes 128

/-- "RoundCount: integer in [1, 8]" (42_blockcipher.md R156): the count carries its bounds, so that the pure
functions have no meaning outside 1..8, as R156 asks. -/
@[ext]
structure RoundCount where
  val : Nat
  min : 1 ≤ val
  max : val ≤ 8
deriving DecidableEq, Repr

/-- The direction of a block transform (00_scope.md, glossary). -/
inductive Direction where
  | encrypt
  | decrypt
deriving DecidableEq, Repr

end Sys2Proof
end

