-- ==== Sys2Proof/Syntax.lean ====
section
/-! DEFINITION. The thirteen commands (30_encoding.md R84), operands at the width their field spells. -/

namespace Sys2Proof

/-- One constructor per row of the opcode table (30_encoding.md R84). Operands are unsigned (R83). A round count
field `r` spells 0..15, "of which only 1..8 are legal" (R83). -/
inductive Instr where
  /-- no operation (R200) -/
  | nop
  /-- KeySchedule: `SK <- rotl8(KEY, n)` (R116) -/
  | kgen (n : BitVec 24)
  /-- RoundFunction on BLK with SK (R132) -/
  | round
  /-- exchange the halves of BLK (R133) -/
  | swap
  /-- BlockCipher, Encrypt, `r` rounds (R151) -/
  | benc (r : BitVec 4)
  /-- BlockCipher, Decrypt, `r` rounds (R152) -/
  | bdec (r : BitVec 4)
  /-- load BLK from DIN (R201) -/
  | ldblk
  /-- emit BLK on DOUT (R202) -/
  | stblk
  /-- emit SK on DOUT (R203) -/
  | stsk
  /-- `LEN <- n` (R173) -/
  | lenl (n : BitVec 24)
  /-- `LEN[31:24] <- h` (R174) -/
  | lenh (h : BitVec 8)
  /-- StreamProcessor, Encrypt (R175) -/
  | senc (r : BitVec 4)
  /-- StreamProcessor, Decrypt (R176) -/
  | sdec (r : BitVec 4)
deriving DecidableEq, Repr

end Sys2Proof
end

