-- ==== Sys2Proof/WellFormed.lean ====
section
/-! DEFINITION. Which commands have legal operands: the round bound of 30_encoding.md R85 step 3. -/

namespace Sys2Proof

/-- A round count field is legal exactly when it spells 1..8 (30_encoding.md R85 step 3; 42_blockcipher.md R156). -/
def legalRounds (r : BitVec 4) : Bool := decide (1 ≤ r.toNat) && decide (r.toNat ≤ 8)

/-- The command has legal operands. Only a round count can be spelled and be illegal: the fields of formats N and H
have every value legal (R83), format Z has none (R82). -/
def Instr.wellFormed : Instr → Bool
  | .nop => true
  | .kgen _ => true
  | .round => true
  | .swap => true
  | .benc r => legalRounds r
  | .bdec r => legalRounds r
  | .ldblk => true
  | .stblk => true
  | .stsk => true
  | .lenl _ => true
  | .lenh _ => true
  | .senc r => legalRounds r
  | .sdec r => legalRounds r

end Sys2Proof
end

