-- ==== Sys2Proof/Decode.lean ====
section
/-! DEFINITION. Command words: fields, formats, the opcode table, the decoder and the encoder (30_encoding.md R80 to R88). -/

namespace Sys2Proof

/-- The four formats (30_encoding.md R82). -/
inductive Format where
  /-- no operand -/
  | z
  /-- 24-bit natural in `w[23:0]` -/
  | n
  /-- 8-bit natural in `w[7:0]` -/
  | h
  /-- round count in `w[27:24]` -/
  | r
deriving DecidableEq, Repr

/-- Why a word spells no command (30_encoding.md R85 steps 1 and 2). Both raise ILLEGAL_CMD. -/
inductive IllegalWord where
  /-- `op` is 0x0, 0xE or 0xF (R86) -/
  | reservedOp
  /-- a must-be-zero bit is set (R87) -/
  | mustBeZero
deriving DecidableEq, Repr

/-- One row of the opcode table: word `w` spells it "exactly when `(w AND mask) = match`" (R84). -/
structure OpcodeRow where
  mnemonic : String
  format : Format
  pattern : Word
  mask : Word
deriving DecidableEq, Repr

/-- `op = w[31:28]` (R81). -/
def opField (w : Word) : BitVec 4 := w.extractLsb' 28 4

/-- `rf = w[27:24]` (R81). -/
def rfField (w : Word) : BitVec 4 := w.extractLsb' 24 4

/-- `imm = w[23:0]` (R81). -/
def immField (w : Word) : BitVec 24 := w.extractLsb' 0 24

/-- `w[7:0]`, the operand of format H (R82, R83). -/
def immHField (w : Word) : BitVec 8 := w.extractLsb' 0 8

/-- The mask of a format: 1 where the row fixes the bit, the must-be-zero bits among them (R82, R84). -/
def Format.mask : Format → Word
  | .z => 0xFFFFFFFF
  | .n => 0xFF000000
  | .h => 0xFFFFFF00
  | .r => 0xF0FFFFFF

/-- The word with the three fields of R81: `op` in bits 31..28, `rf` in bits 27..24, `imm` in bits 23..0. -/
def fieldsWord (op rf : BitVec 4) (imm : BitVec 24) : Word :=
  BitVec.ofNat 32 (op.toNat * 2 ^ 28 + rf.toNat * 2 ^ 24 + imm.toNat)

/-- R84's `match`: the opcode in bits 31..28, every other fixed bit zero. -/
def opPattern (op : BitVec 4) : Word := fieldsWord op 0 0

/-- Step 2 of R85 for the row whose format is `f`: the command `i`, or a must-be-zero bit is set. -/
def spell (w : Word) (f : Format) (i : Instr) : Except IllegalWord Instr :=
  if w &&& f.mask = opPattern (opField w) then .ok i else .error .mustBeZero

/-- The decoder (30_encoding.md R85 steps 1 and 2), total on 32-bit words. Step 3 (the round count) is the first
thing a format-R command does: the word still spells that command (R84, R88), with an illegal operand. -/
def decode (w : Word) : Except IllegalWord Instr :=
  match (opField w).toNat with
  | 0x1 => spell w .z .nop
  | 0x2 => spell w .n (.kgen (immField w))
  | 0x3 => spell w .z .round
  | 0x4 => spell w .z .swap
  | 0x5 => spell w .r (.benc (rfField w))
  | 0x6 => spell w .r (.bdec (rfField w))
  | 0x7 => spell w .z .ldblk
  | 0x8 => spell w .z .stblk
  | 0x9 => spell w .z .stsk
  | 0xA => spell w .n (.lenl (immField w))
  | 0xB => spell w .h (.lenh (immHField w))
  | 0xC => spell w .r (.senc (rfField w))
  | 0xD => spell w .r (.sdec (rfField w))
  | _ => .error .reservedOp

/-- The encoder, from the same table (R81, R82, R84): opcode, round field, immediate. -/
def encode : Instr → Word
  | .nop => fieldsWord 0x1 0 0
  | .kgen n => fieldsWord 0x2 0 n
  | .round => fieldsWord 0x3 0 0
  | .swap => fieldsWord 0x4 0 0
  | .benc r => fieldsWord 0x5 r 0
  | .bdec r => fieldsWord 0x6 r 0
  | .ldblk => fieldsWord 0x7 0 0
  | .stblk => fieldsWord 0x8 0 0
  | .stsk => fieldsWord 0x9 0 0
  | .lenl n => fieldsWord 0xA 0 n
  | .lenh h => fieldsWord 0xB 0 (h.setWidth 24)
  | .senc r => fieldsWord 0xC r 0
  | .sdec r => fieldsWord 0xD r 0

/-- The normative table of R84, its literals as printed there. -/
def opcodeTable : List OpcodeRow :=
  [⟨"NOP", .z, 0x10000000, 0xFFFFFFFF⟩, ⟨"KGEN", .n, 0x20000000, 0xFF000000⟩,
   ⟨"ROUND", .z, 0x30000000, 0xFFFFFFFF⟩, ⟨"SWAP", .z, 0x40000000, 0xFFFFFFFF⟩,
   ⟨"BENC", .r, 0x50000000, 0xF0FFFFFF⟩, ⟨"BDEC", .r, 0x60000000, 0xF0FFFFFF⟩,
   ⟨"LDBLK", .z, 0x70000000, 0xFFFFFFFF⟩, ⟨"STBLK", .z, 0x80000000, 0xFFFFFFFF⟩,
   ⟨"STSK", .z, 0x90000000, 0xFFFFFFFF⟩, ⟨"LENL", .n, 0xA0000000, 0xFF000000⟩,
   ⟨"LENH", .h, 0xB0000000, 0xFFFFFF00⟩, ⟨"SENC", .r, 0xC0000000, 0xF0FFFFFF⟩,
   ⟨"SDEC", .r, 0xD0000000, 0xF0FFFFFF⟩]

/-- Word `w` spells the command of the row (R84). -/
def OpcodeRow.spelledBy (row : OpcodeRow) (w : Word) : Bool := w &&& row.mask == row.pattern

/-- The command's name in R84. -/
def Instr.mnemonic : Instr → String
  | .nop => "NOP"
  | .kgen _ => "KGEN"
  | .round => "ROUND"
  | .swap => "SWAP"
  | .benc _ => "BENC"
  | .bdec _ => "BDEC"
  | .ldblk => "LDBLK"
  | .stblk => "STBLK"
  | .stsk => "STSK"
  | .lenl _ => "LENL"
  | .lenh _ => "LENH"
  | .senc _ => "SENC"
  | .sdec _ => "SDEC"

/-- The command word whose low `nbits` bits are those of `w`, every bit above them 0: one indivisible 32-bit transfer,
so no byte order is involved (20_memory.md R56). -/
def tableWord (nbits w : Nat) : Word := BitVec.ofNat 32 (w % 2 ^ nbits)

/-- What the decoder reads from that word, `none` where it refuses. -/
def decodeTableWord (nbits w : Nat) : Option Instr := (decode (tableWord nbits w)).toOption

end Sys2Proof
end

