-- ==== Sys2Proof/Config.lean ====
section
/-! DEFINITION. The implementation parameters of 00_scope.md R5 and this hardware's values. -/

namespace Sys2Proof

/-- 00_scope.md R5: "A model should take `BASE_KEY` as a configuration field ... and instantiate it with 0x96 for
this hardware; every other parameter is a constant of the model". The constants stand where they are used:
BLOCK_BYTES 128 and HALF_BYTES 64 in `Block` and `Half`, KEY_BITS and DATA_BITS 8 in `Byte`, ROUNDS_MIN 1 and
ROUNDS_MAX 8 in `RoundCount`, PAD_BYTE 0x00 in `pad` and `stripLen`, CMD_BITS 32 in `Word`, LEN_BITS 32, IDX_BITS 26
and ERR_BITS 2 in `Machine.State`. -/
structure Config where
  /-- BASE_KEY, the value KEY is hard-wired to (10_state.md R23; 92_eei_decisions.md D2: "`OPEN` as model parameter") -/
  baseKey : Byte
deriving DecidableEq, Repr

/-- This hardware: base key 0x96 = 0b10010110 (R5, 10_state.md R23). -/
def Config.fge : Config := ⟨0x96⟩

end Sys2Proof
end

