-- ==== Sys2Proof/Machine/State.lean ====
section
/-! DEFINITION. The machine's state: FGE's registers and hidden micro-state, and the host's side of its three ports and of `rst`. -/

namespace Sys2Proof.Machine

/-- The three faults FGE raises (60_exceptions.md R220). They are no end of the model's run: raising one is a next
state, with HALT = 1 (`raise`, R228). -/
inductive FaultKind where
  /-- R221: the word spells no command -/
  | illegalCmd
  /-- R222: a round count outside 1..8 -/
  | roundsRange
  /-- R223: SDEC has reached a block of fewer than 128 bytes -/
  | format
deriving DecidableEq, Repr

/-- The phase of a command in progress: "reading, transforming, writing" (10_state.md R32). -/
inductive Phase where
  | reading
  | transforming
  | writing
deriving DecidableEq, Repr

/-- The hidden state of a command in progress (10_state.md R32): "a model that steps one port transfer at a time needs
exactly (command, phase, J, N)". It is held while the command waits on a port. -/
structure Progress where
  /-- the accepted command (its word is `encode` of it) -/
  command : Instr
  phase : Phase
  /-- the byte counter `J` in 0..128: the bytes of this phase already transferred -/
  j : Nat
  /-- SDEC's strip length `N` in 0..128; 0 outside SDEC's writing phase -/
  n : Nat
deriving DecidableEq, Repr

/-- The state (10_state.md R20, R32), and the host's side of the ports (20_memory.md R51 to R53, R64). -/
structure State where
  /-- BLK, 128 byte cells (R21); `L` and `R` are its views (R22) -/
  blk : Block
  /-- KEY, read-only: reset of a configuration puts its BASE_KEY here, and no operation writes it (R23). DESIGN CHOICE,
  log entry 7 -/
  key : Byte
  /-- SK, the subkey register (R24) -/
  sk : Byte
  /-- LEN, the stream length (R25) -/
  len : BitVec 32
  /-- BLKCNT, the block count of the stream command last started (R26) -/
  blkCnt : BitVec 26
  /-- BLKIDX, the index of the block being processed (R26) -/
  blkIdx : BitVec 26
  /-- ERR, the fault code or 0 (R27) -/
  err : BitVec 2
  /-- ERRINFO (R28) -/
  errInfo : BitVec 32
  /-- HALT (R29) -/
  halt : Bool
  /-- BUSY (R30) -/
  busy : Bool
  /-- the hidden state of the command in progress (R32); log entries 1, 9, 11 -/
  cur : Option Progress
  /-- CMD: the words the host presents, not yet accepted, in order (20_memory.md R51); log entry 6 -/
  cmd : List Word
  /-- DIN: the bytes the host offers, not yet consumed, in order (R52); log entry 6 -/
  din : List Byte
  /-- DOUT: the bytes transferred to the host, in the order pushed (R53) -/
  dout : List Byte
  /-- how many more bytes the host accepts on DOUT before it holds back: `none`, every one (R53, R63).
  DESIGN CHOICE, log entry 3 -/
  doutRoom : Option Nat
  /-- the level the host drives on `rst` (70_reset_and_hazards.md R250). DEDUCED, log entry 4 -/
  rst : Bool
  /-- the index into the host's command list: the words accepted so far (10_state.md R31). DESIGN CHOICE,
  log entry 5 -/
  accepted : Nat
deriving DecidableEq, Repr

/-- No step of FGE ends the machine's run. A fault of FGE is a state (HALT = 1, 60_exceptions.md R228) and a wait is a
state (BUSY = 1, 20_memory.md R63: "This is not a fault"). So this type has no constructor: nobody raises one, and
that is safe, since every state the spec gives is shown (DESIGN CHOICE, log entry 2). -/
inductive Fault
deriving DecidableEq, Repr

/-- Why an instruction has no meaning. -/
inductive Refusal where
  /-- Raised by an arm of `exec` for a command that has no meaning yet. No arm raises it now. Safe: the run stops. -/
  | notModelled (mnemonic : String)
deriving DecidableEq, Repr

/-- The machine of configuration `c` right after reset (10_state.md R35, 70_reset_and_hazards.md R251), `rst` released,
with nothing presented on CMD and DIN, nothing transferred on DOUT (R261), and a host that takes every byte pushed. The
configuration is an argument, "so that laws can be stated for every key" (00_scope.md R5). -/
def State.resetFor (c : Config) : State where
  blk := Bytes.replicate 128 0x00
  key := c.baseKey
  sk := 0x00
  len := 0
  blkCnt := 0
  blkIdx := 0
  err := 0
  errInfo := 0
  halt := false
  busy := false
  cur := none
  cmd := []
  din := []
  dout := []
  doutRoom := none
  rst := false
  accepted := 0

/-- This hardware right after reset: BASE_KEY = 0x96 (00_scope.md R5). -/
def State.reset : State := State.resetFor Config.fge

end Sys2Proof.Machine
end

