-- ==== Sys2Proof/Machine/Flags.lean ====
section
/-! DEFINITION. The status flags BUSY and HALT and the fault codes. FGE has no condition codes: every command rule says "Flags: none". -/

namespace Sys2Proof.Machine

/-- The code fault entry writes to ERR (60_exceptions.md R220); 0 is NONE. -/
def FaultKind.code : FaultKind → BitVec 2
  | .illegalCmd => 1
  | .roundsRange => 2
  | .format => 3

/-- "The engine is *idle* when `BUSY = 0` and `HALT = 0`" (10_state.md R30). -/
def State.idle (s : State) : Bool := !s.busy && !s.halt

/-- Acceptance of the head `w :: ws` of CMD: the word leaves the list, `BUSY <- 1` (20_memory.md R51), and the index
into the host's list advances by exactly 1 (10_state.md R31). -/
def accept (ws : List Word) (s : State) : State :=
  { s with cmd := ws, busy := true, accepted := s.accepted + 1 }

/-- Completion of a command: `BUSY <- 0`, no command in progress (10_state.md R30, R32). -/
def complete (s : State) : State := { s with busy := false, cur := none }

/-- The command in progress waits on a port with micro-state `p`: `BUSY = 1` (10_state.md R32, 20_memory.md R63). -/
def waitAt (p : Progress) (s : State) : State := { s with busy := true, cur := some p }

end Sys2Proof.Machine
end

