-- ==== Sys2Proof/Machine/Operands.lean ====
section
/-! DEFINITION. The operand forms of formats N, H and R (30_encoding.md R83). -/

namespace Sys2Proof.Machine

/-- Format N: `n = zext(w[23:0])` (R83). -/
def operandN (n : BitVec 24) : Nat := n.toNat

/-- Format H: `h = zext(w[7:0])` (R83). -/
def operandH (h : BitVec 8) : Nat := h.toNat

/-- Format R: `r = zext(w[27:24])`, "of which only 1..8 are legal" (R83, R85 step 3). -/
def operandR (r : BitVec 4) : Option RoundCount :=
  if h : 1 ≤ r.toNat ∧ r.toNat ≤ 8 then some ⟨r.toNat, h.1, h.2⟩ else none

/-- `LEN <- zext_32(n)`: "LEN[23:0] <- n, LEN[31:24] <- 0" (43_stream.md R173). -/
def lenLow (n : BitVec 24) : BitVec 32 := BitVec.ofNat 32 (operandN n)

/-- `LEN <- h * 2^24 + LEN[23:0]`: "LEN[31:24] <- h, LEN[23:0] unchanged" (43_stream.md R174). -/
def lenHigh (h : BitVec 8) (len : BitVec 32) : BitVec 32 :=
  BitVec.ofNat 32 (operandH h * 2 ^ 24 + len.toNat % 2 ^ 24)

end Sys2Proof.Machine
end

