-- ==== Sys2Proof/Machine/Ops.lean ====
section
/-! DEFINITION. The shared operations: block cells and views, the port primitives, fault entry, reset, and how a command's pseudocode runs on or stops. -/

namespace Sys2Proof.Machine

/-! ### BLK and its views -/

/-- `BLK[i] <- v`, `0 <= i <= 127` (00_scope.md R7). -/
def setCell (b : Block) (i : Nat) (v : Byte) : Block := ⟨b.list.set i v, by rw [List.length_set, b.size]⟩

/-- `L`: `L[j]` is `BLK[j]` (10_state.md R22). -/
def left (b : Block) : Half := ⟨b.list.take 64, by rw [List.length_take, b.size]; rfl⟩

/-- `R`: `R[j]` is `BLK[64+j]` (10_state.md R22). -/
def right (b : Block) : Half := ⟨b.list.drop 64, by rw [List.length_drop, b.size]⟩

/-- The index in BLK of `L[j]` (10_state.md R22). -/
def cellL (j : Fin 64) : Fin 128 := ⟨j.val, by omega⟩

/-- The index in BLK of `R[j]` (10_state.md R22). -/
def cellR (j : Fin 64) : Fin 128 := ⟨64 + j.val, by omega⟩

/-- `l ‖ r`: "a Block is exactly two Halves, Left and Right, in that order" (10_state.md R22). -/
def join (l r : Half) : Block := ⟨l.list ++ r.list, by rw [List.length_append, l.size, r.size]⟩

/-- `for j = a, ..., 127: BLK[j] <- 0x00` (43_stream.md R175). -/
def zeroFrom (a : Nat) (b : Block) : Block :=
  ⟨b.list.take a ++ List.replicate (128 - a) 0x00, by
    rw [List.length_append, List.length_take, b.size, List.length_replicate]; omega⟩

/-! ### The ports -/

/-- `DinPop()` "removes and returns its head"; with nothing offered it has no value: the engine waits
(20_memory.md R52). -/
def dinPop (s : State) : Option (Byte × State) :=
  match s.din with
  | [] => none
  | b :: bs => some (b, { s with din := bs })

/-- `DoutPush(b)` appends `b`, when the host accepts it; while the host holds back, the engine waits
(20_memory.md R53). -/
def doutPush (b : Byte) (s : State) : Option State :=
  match s.doutRoom with
  | none => some { s with dout := s.dout ++ [b] }
  | some 0 => none
  | some (k + 1) => some { s with dout := s.dout ++ [b], doutRoom := some k }

/-! ### Fault entry and reset -/

/-- `raise F(info)` (60_exceptions.md R228), one step: `ERR <- code(F)`; `ERRINFO <- info`; `HALT <- 1`; `BUSY <- 0`;
the command in progress ends. "Nothing else is saved", and control goes nowhere. -/
def raise (f : FaultKind) (info : BitVec 32) (s : State) : State :=
  { s with err := f.code, errInfo := info, halt := true, busy := false, cur := none }

/-- One rising edge of `clk` with `rst = 1` (70_reset_and_hazards.md R250 to R252): every register takes its reset
value and the command in progress is abandoned. KEY and the host's side of the ports are not touched (R251). It is
the only way out of a fault: there is no return from one (60_exceptions.md R230). -/
def resetEngine (s : State) : State :=
  { s with
    blk := State.reset.blk, sk := State.reset.sk, len := State.reset.len, blkCnt := State.reset.blkCnt,
    blkIdx := State.reset.blkIdx, err := State.reset.err, errInfo := State.reset.errInfo, halt := State.reset.halt,
    busy := State.reset.busy, cur := State.reset.cur }

/-! ### Running a command's pseudocode -/

/-- Where a piece of a command's pseudocode leaves the engine. -/
inductive Flow where
  /-- it ran to its end, and the pseudocode after it runs -/
  | goOn (s : State)
  /-- it waits on a port (20_memory.md R63) or has raised a fault (60_exceptions.md R228): nothing after it runs -/
  | stop (s : State)
deriving DecidableEq, Repr

/-- Sequencing: `k` runs after `f`, unless `f` stopped. -/
def Flow.andThen (f : Flow) (k : State → Flow) : Flow :=
  match f with
  | .goOn s => k s
  | .stop s => .stop s

/-- The end of the pseudocode: a command that ran to its end completes (10_state.md R30). -/
def Flow.close : Flow → State
  | .goOn s => complete s
  | .stop s => s

/-- `k` more turns of `for j: BLK[j] <- DinPop()`, from `j` on (20_memory.md R54). While the host offers no byte the
command waits, in the micro-state `p j`, "with the cells already loaded holding their new values and the rest their
old ones" (44_datamove_system.md R201). -/
def loadBytes (p : Nat → Progress) : Nat → Nat → State → Flow
  | 0, _, s => .goOn s
  | k + 1, j, s =>
    match dinPop s with
    | none => .stop (waitAt (p j) s)
    | some (b, s') => loadBytes p k (j + 1) { s' with blk := setCell s'.blk j b }

/-- `DoutPush` of each of the given bytes, the first of them at byte counter `j`. While the host does not accept a byte
the command waits, in the micro-state `p j` (20_memory.md R53, R63). -/
def emitBytes (p : Nat → Progress) : List Byte → Nat → State → Flow
  | [], _, s => .goOn s
  | b :: bs, j, s =>
    match doutPush b s with
    | none => .stop (waitAt (p j) s)
    | some s' => emitBytes p bs (j + 1) s'

/-- `for j = j0, ..., n-1: DoutPush(BLK[j])`, the lowest index first (20_memory.md R54). -/
def emitBlk (p : Nat → Progress) (n j : Nat) (s : State) : Flow :=
  emitBytes p ((s.blk.list.take n).drop j) j s

/-- Step 3 of R85, for the command `i` with round field `r`: outside 1..8, `raise ROUNDS_RANGE(w)` with `w` the command
word, before any other effect (60_exceptions.md R222); else the body runs with the legal count. DEDUCED, log entry 8. -/
def withRounds (r : BitVec 4) (i : Instr) (s : State) (body : RoundCount → State) : State :=
  match operandR r with
  | none => raise .roundsRange (encode i) s
  | some rc => body rc

end Sys2Proof.Machine
end

