-- ==== Sys2Proof/Machine/DataMove.lean ====
section
/-! DEFINITION. NOP, LDBLK, STBLK and STSK (44_datamove_system.md). -/

namespace Sys2Proof.Machine

/-- LDBLK's loop from byte counter `j` (R201). -/
def ldblkFrom (j : Nat) (s : State) : Flow := loadBytes (fun j => ⟨.ldblk, .reading, j, 0⟩) (128 - j) j s

/-- STBLK's loop from byte counter `j` (R202). -/
def stblkFrom (j : Nat) (s : State) : Flow := emitBlk (fun j => ⟨.stblk, .writing, j, 0⟩) 128 j s

/-- `DoutPush(SK)` (R203). -/
def stskPush (s : State) : Flow := emitBytes (fun j => ⟨.stsk, .writing, j, 0⟩) [s.sk] 0 s

/-- NOP (R200): "It is accepted (so `BUSY` is 1 and then 0) and changes no register and touches no data port." -/
def execNop (s : State) : Host.Outcome State Fault Refusal := .next (complete s)

/-- LDBLK (R201). -/
def execLdblk (s : State) : Host.Outcome State Fault Refusal := .next (ldblkFrom 0 s).close

/-- STBLK (R202). -/
def execStblk (s : State) : Host.Outcome State Fault Refusal := .next (stblkFrom 0 s).close

/-- STSK (R203). -/
def execStsk (s : State) : Host.Outcome State Fault Refusal := .next (stskPush s).close

end Sys2Proof.Machine
end

