-- ==== Sys2Proof/Machine/KeySchedule.lean ====
section
/-! DEFINITION. The key-schedule generator and KGEN (40_keyschedule.md). -/

namespace Sys2Proof.Machine

/-- `rotl8(b, n)` (R110): with `m = n mod 8`, `b` if `m = 0`, else `((b << m) OR (b >> (8 - m))) AND 0xFF`. -/
def rotl8 (b : Byte) (n : Nat) : Byte :=
  let m := n % 8
  if m = 0 then b else (b <<< m) ||| (b >>> (8 - m))

/-- `generate_key(base, n)` (R111). -/
def generateKey (base : Byte) (n : Nat) : Byte := rotl8 base n

/-- `subkey_enc(K, i)` (R112). -/
def subkeyEnc (K : Byte) (i : Nat) : Byte := rotl8 K (i + 1)

/-- `subkey_dec(K, r, i)` (R113), for `i` in 0..r-1. -/
def subkeyDec (K : Byte) (r i : Nat) : Byte := rotl8 K (r - i)

/-- The subkey of round `i` in either direction (42_blockcipher.md R150). -/
def subkey (K : Byte) (r : RoundCount) : Direction → Nat → Byte
  | .encrypt, i => subkeyEnc K i
  | .decrypt, i => subkeyDec K r.val i

/-- `SK <- v` (10_state.md R24). -/
def setSubkey (v : Byte) (s : State) : State := { s with sk := v }

/-- KGEN (R116): `SK <- rotl8(KEY, n)`. -/
def execKgen (n : BitVec 24) (s : State) : Host.Outcome State Fault Refusal :=
  .next (complete (setSubkey (generateKey s.key (operandN n)) s))

end Sys2Proof.Machine
end

