-- ==== Sys2Proof/Machine/RoundFunction.lean ====
section
/-! DEFINITION. The Feistel round, ROUND and SWAP (41_round.md). -/

namespace Sys2Proof.Machine

/-- `s ^ k`: the single key byte XORed into every byte (00_scope.md R6). -/
def xorByte {n : Nat} (s : Bytes n) (k : Byte) : Bytes n :=
  ⟨s.list.map (· ^^^ k), by rw [List.length_map, s.size]⟩

/-- `a ^ b`, index by index (00_scope.md R6). -/
def xorBytes {n : Nat} (a b : Bytes n) : Bytes n :=
  ⟨List.zipWith (· ^^^ ·) a.list b.list, by rw [List.length_zipWith, a.size, b.size, Nat.min_self]⟩

/-- `Round(left, right, k)` (R130): "`newLeft` is the *unkeyed* `right`, not `keyedRight`". -/
def roundHalves (left right : Half) (k : Byte) : Half × Half :=
  let keyedRight := xorByte right k
  let mixedLeft := xorBytes left keyedRight
  (right, mixedLeft)

/-- `(L, R) <- Round(L, R, k)`, all right-hand sides read before any cell is written (R132). -/
def roundBlock (b : Block) (k : Byte) : Block :=
  let p := roundHalves (left b) (right b) k
  join p.1 p.2

/-- `(L, R) <- (R, L)` (R133). -/
def swapBlock (b : Block) : Block := join (right b) (left b)

/-- `(L, R) <- Round(L, R, SK)` on the state (R132). -/
def applyRound (s : State) : State := { s with blk := roundBlock s.blk s.sk }

/-- `(L, R) <- (R, L)` on the state (R133). -/
def applySwap (s : State) : State := { s with blk := swapBlock s.blk }

/-- ROUND (R132). -/
def execRound (s : State) : Host.Outcome State Fault Refusal := .next (complete (applyRound s))

/-- SWAP (R133). -/
def execSwap (s : State) : Host.Outcome State Fault Refusal := .next (complete (applySwap s))

end Sys2Proof.Machine
end

