-- ==== Sys2Proof/Machine/BlockCipher.lean ====
section
/-! DEFINITION. The block transform, BENC and BDEC (42_blockcipher.md). -/

namespace Sys2Proof.Machine

/-- Rounds 0 to `n - 1` of R150, in that order, `k i` the subkey of round `i`. -/
def roundsHalves (k : Nat → Byte) : Nat → Half × Half → Half × Half
  | 0, p => p
  | i + 1, p => let q := roundsHalves k i p; roundHalves q.1 q.2 (k i)

/-- `Transform(B, K, r, dir)` (R150): the rounds, then "the concatenation `(Right_final, Left_final)`". -/
def transform (B : Block) (K : Byte) (r : RoundCount) (dir : Direction) : Block :=
  let p := roundsHalves (subkey K r dir) r.val (left B, right B)
  join p.2 p.1

/-- `SK <- k_i; (L, R) <- Round(L, R, SK)` for rounds 0 to `n - 1`, in that order (R151, R152). -/
def runRounds (k : Nat → Byte) : Nat → State → State
  | 0, s => s
  | i + 1, s => applyRound (setSubkey (k i) (runRounds k i s))

/-- The body of R151 (`BlockEncrypt(r)`) and of R152 (`BlockDecrypt(r)`), which differ only in the subkeys. -/
def blockTransform (dir : Direction) (r : RoundCount) (s : State) : State :=
  applySwap (runRounds (subkey s.key r dir) r.val s)

/-- BENC (R151). -/
def execBenc (r : BitVec 4) (s : State) : Host.Outcome State Fault Refusal :=
  .next (withRounds r (.benc r) s fun rc => complete (blockTransform .encrypt rc s))

/-- BDEC (R152). -/
def execBdec (r : BitVec 4) (s : State) : Host.Outcome State Fault Refusal :=
  .next (withRounds r (.bdec r) s fun rc => complete (blockTransform .decrypt rc s))

end Sys2Proof.Machine
end

