-- ==== Sys2Proof/Machine/StreamProcessor.lean ====
section
/-! DEFINITION. The chunker, the zero-padder and the stripper; LENL, LENH, SENC and SDEC (43_stream.md). -/

namespace Sys2Proof.Machine

/-! ### Pure functions -/

/-- `BlockCount(n) = ceil(n / 128)` (R170). -/
def blockCount (n : Nat) : Nat := (n + 127) / 128

/-- `Avail(n, i) = min(128, n - 128*i)` (R170), for `i` below `BlockCount(n)`. -/
def avail (n i : Nat) : Nat := min 128 (n - 128 * i)

/-- `Pad(c)` (R171), for `1 <= |c| <= 128`: the bytes of `c`, then zero bytes up to 128. -/
def pad (c : List Byte) : Block :=
  ⟨c.take 128 ++ List.replicate (128 - c.length) 0x00, by
    rw [List.length_append, List.length_take, List.length_replicate]; omega⟩

/-- The loop of R172: `while n > 0 and B[n-1] = 0x00: n = n - 1`. -/
def stripFrom (bytes : List Byte) : Nat → Nat
  | 0 => 0
  | n + 1 => if bytes.getD n 0x00 = 0x00 then stripFrom bytes n else n + 1

/-- `StripLen(B)` (R172). -/
def stripLen (B : Block) : Nat := stripFrom B.list 128

/-- `Strip(B) = B[0..StripLen(B)-1]` (R172). -/
def strip (B : Block) : List Byte := B.list.take (stripLen B)

/-- The chunk `P_i = P[128*i .. 128*i + Avail(|P|, i) - 1]` (R177). -/
def chunk (P : List Byte) (i : Nat) : List Byte := (P.drop (128 * i)).take (avail P.length i)

/-- `Transform(Pad(P_i), K, r, dir)` (R177). For a full block `Pad` is the identity (R171). -/
def blockOf (P : List Byte) (K : Byte) (r : RoundCount) (dir : Direction) (i : Nat) : Block :=
  transform (pad (chunk P i)) K r dir

/-- `StreamEnc(P, K, r)` (R177), over sequences of any length (93_implementation_defined.md U7). -/
def streamEnc (P : List Byte) (K : Byte) (r : RoundCount) : List Byte :=
  (List.range (blockCount P.length)).flatMap fun i => (blockOf P K r .encrypt i).list

/-- `D_0 ‖ ... ‖ D_{q-1}`, the first `q` decrypted blocks in full (R177). -/
def decryptedBlocks (C : List Byte) (K : Byte) (r : RoundCount) (q : Nat) : List Byte :=
  (List.range q).flatMap fun i => (blockOf C K r .decrypt i).list

/-- `StreamDec(C, K, r)` (R177); "for `|C|` not a multiple of 128, `StreamDec` has no value". -/
def streamDec (C : List Byte) (K : Byte) (r : RoundCount) : Option (List Byte) :=
  if C.length % 128 ≠ 0 then none
  else match C.length / 128 with
    | 0 => some []
    | m + 1 => some (decryptedBlocks C K r m ++ strip (blockOf C K r .decrypt m))

/-! ### LENL and LENH -/

/-- LENL (R173). -/
def execLenl (n : BitVec 24) (s : State) : Host.Outcome State Fault Refusal :=
  .next (complete { s with len := lenLow n })

/-- LENH (R174). -/
def execLenh (h : BitVec 8) (s : State) : Host.Outcome State Fault Refusal :=
  .next (complete { s with len := lenHigh h s.len })

/-! ### SENC and SDEC

Each loop body runs its three phases in the order of 20_memory.md R60. A command that waited resumes its body in the
phase and at the byte counter it stopped at (10_state.md R32). -/

/-- `BLKCNT <- BlockCount(LEN)`, `BLKIDX <- 0` (R175, R176). -/
def startStream (s : State) : State :=
  { s with blkCnt := BitVec.ofNat 26 (blockCount s.len.toNat), blkIdx := 0 }

/-- `a = min(128, LEN - 128*BLKIDX)` (R175, R176). -/
def availNow (s : State) : Nat := avail s.len.toNat s.blkIdx.toNat

/-- How many turns `while BLKIDX < BLKCNT` has left. -/
def blocksLeft (s : State) : Nat := s.blkCnt.toNat - s.blkIdx.toNat

/-- `BLKIDX <- BLKIDX + 1` (R175, R176). -/
def nextBlock (s : State) : Flow := .goOn { s with blkIdx := s.blkIdx + 1 }

/-- SENC's writing phase from byte counter `j`: `for j: DoutPush(BLK[j])`, all 128; then the next block (R175). -/
def sencWrite (i : Instr) (j : Nat) (s : State) : Flow :=
  (emitBlk (fun j => ⟨i, .writing, j, 0⟩) 128 j s).andThen nextBlock

/-- SENC's transforming phase: zero-pad and `BlockEncrypt(r)`, then write (R175). -/
def sencTransform (i : Instr) (r : RoundCount) (s : State) : Flow :=
  sencWrite i 0 (blockTransform .encrypt r { s with blk := zeroFrom (availNow s) s.blk })

/-- SENC's reading phase from byte counter `j`: `for j: BLK[j] <- DinPop()`, up to `a`; then transform (R175). -/
def sencRead (i : Instr) (r : RoundCount) (j : Nat) (s : State) : Flow :=
  (loadBytes (fun j => ⟨i, .reading, j, 0⟩) (availNow s - j) j s).andThen (sencTransform i r)

/-- The turns of SENC's loop that are left, each from its top (R175). -/
def sencLoop (i : Instr) (r : RoundCount) : Nat → State → Flow
  | 0, s => .goOn s
  | k + 1, s => (sencRead i r 0 s).andThen (sencLoop i r k)

/-- `while BLKIDX < BLKCNT` of R175, from the top. -/
def sencRun (i : Instr) (r : RoundCount) (s : State) : Flow := sencLoop i r (blocksLeft s) s

/-- SENC (R175). -/
def execSenc (r : BitVec 4) (s : State) : Host.Outcome State Fault Refusal :=
  .next (withRounds r (.senc r) s fun rc => (sencRun (.senc r) rc (startStream s)).close)

/-- SDEC's writing phase from byte counter `j`: `for j = .., N-1: DoutPush(BLK[j])`; then the next block (R176).
"Stripping shortens only what is pushed: `BLK` keeps all 128 decrypted bytes." -/
def sdecWrite (i : Instr) (n j : Nat) (s : State) : Flow :=
  (emitBlk (fun j => ⟨i, .writing, j, n⟩) n j s).andThen nextBlock

/-- `N`: `StripLen(BLK)` for the last block, else 128 (R176). -/
def pushLen (s : State) : Nat :=
  if s.blkIdx.toNat + 1 = s.blkCnt.toNat then stripLen s.blk else 128

/-- SDEC's transforming phase: `BlockDecrypt(r)`, the strip length, then write (R176). -/
def sdecTransform (i : Instr) (r : RoundCount) (s : State) : Flow :=
  let t := blockTransform .decrypt r s
  sdecWrite i (pushLen t) 0 t

/-- SDEC's reading phase from byte counter `j`, up to 128; then transform (R176). -/
def sdecRead (i : Instr) (r : RoundCount) (j : Nat) (s : State) : Flow :=
  (loadBytes (fun j => ⟨i, .reading, j, 0⟩) (128 - j) j s).andThen (sdecTransform i r)

/-- The top of SDEC's loop body: `if a < 128: raise FORMAT(a)`, "nothing popped or pushed for this block" (R176). -/
def sdecBody (i : Instr) (r : RoundCount) (s : State) : Flow :=
  if availNow s < 128 then .stop (raise .format (BitVec.ofNat 32 (availNow s)) s) else sdecRead i r 0 s

/-- The turns of SDEC's loop that are left, each from its top (R176). -/
def sdecLoop (i : Instr) (r : RoundCount) : Nat → State → Flow
  | 0, s => .goOn s
  | k + 1, s => (sdecBody i r s).andThen (sdecLoop i r k)

/-- `while BLKIDX < BLKCNT` of R176, from the top. -/
def sdecRun (i : Instr) (r : RoundCount) (s : State) : Flow := sdecLoop i r (blocksLeft s) s

/-- SDEC (R176). -/
def execSdec (r : BitVec 4) (s : State) : Host.Outcome State Fault Refusal :=
  .next (withRounds r (.sdec r) s fun rc => (sdecRun (.sdec r) rc (startStream s)).close)

end Sys2Proof.Machine
end

