-- ==== Sys2Proof/Machine/Dispatch.lean ====
section
/-! DEFINITION. One arm per command. -/

namespace Sys2Proof.Machine

def exec (i : Instr) (s : State) : Host.Outcome State Fault Refusal :=
  match i with
  | .nop => Sys2Proof.Machine.execNop s
  | .kgen n => Sys2Proof.Machine.execKgen n s
  | .round => Sys2Proof.Machine.execRound s
  | .swap => Sys2Proof.Machine.execSwap s
  | .benc r => Sys2Proof.Machine.execBenc r s
  | .bdec r => Sys2Proof.Machine.execBdec r s
  | .ldblk => Sys2Proof.Machine.execLdblk s
  | .stblk => Sys2Proof.Machine.execStblk s
  | .stsk => Sys2Proof.Machine.execStsk s
  | .lenl n => Sys2Proof.Machine.execLenl n s
  | .lenh h => Sys2Proof.Machine.execLenh h s
  | .senc r => Sys2Proof.Machine.execSenc r s
  | .sdec r => Sys2Proof.Machine.execSdec r s

end Sys2Proof.Machine
end

