-- ==== Sys2Proof/Machine/Resume.lean ====
section
/-! DEFINITION. A command in progress goes on from where it waited (10_state.md R32, 20_memory.md R63). -/

namespace Sys2Proof.Machine

/-- SENC from the micro-state `p`: the body of the block in progress from its phase, then the loop. -/
def resumeSenc (p : Progress) (r : RoundCount) (s : State) : Flow :=
  Flow.andThen
    (match p.phase with
      | .reading => sencRead p.command r p.j s
      | .transforming => sencTransform p.command r s
      | .writing => sencWrite p.command p.j s)
    (sencRun p.command r)

/-- SDEC from the micro-state `p`: the body of the block in progress from its phase, then the loop. -/
def resumeSdec (p : Progress) (r : RoundCount) (s : State) : Flow :=
  Flow.andThen
    (match p.phase with
      | .reading => sdecRead p.command r p.j s
      | .transforming => sdecTransform p.command r s
      | .writing => sdecWrite p.command p.n p.j s)
    (sdecRun p.command r)

/-- The command in progress runs on "the moment the host makes the transfer" (R63); while the port it waits on is
still blocked it changes nothing. Only the five commands that touch a port ever wait (00_scope.md R2, R50): in the
other arms, and in a state with no progress recorded, which no run reaches, nothing happens (DESIGN CHOICE, log
entry 11). -/
def resume (s : State) : State :=
  match s.cur with
  | none => s
  | some p =>
    match p.command with
    | .ldblk => (ldblkFrom p.j s).close
    | .stblk => (stblkFrom p.j s).close
    | .stsk => (stskPush s).close
    | .senc r => withRounds r (.senc r) s fun rc => (resumeSenc p rc s).close
    | .sdec r => withRounds r (.sdec r) s fun rc => (resumeSdec p rc s).close
    | .nop => s
    | .kgen _ => s
    | .round => s
    | .swap => s
    | .benc _ => s
    | .bdec _ => s
    | .lenl _ => s
    | .lenh _ => s

end Sys2Proof.Machine
end

