-- ==== Sys2Proof/Machine/Step.lean ====
section
/-! DEFINITION. One step of the machine: reset, a halted engine, a command in progress, or the next command word. -/

namespace Sys2Proof.Machine

/-- What the engine does with the accepted word `w` (30_encoding.md R85): a word that spells no command raises
ILLEGAL_CMD(w), before any other effect; else the command executes. -/
def execWord (w : Word) (s : State) : Host.Outcome State Fault Refusal :=
  match decode w with
  | .error _ => .next (raise .illegalCmd w s)
  | .ok i => exec i s

/-- One step. With `rst = 1` the engine is reset (70_reset_and_hazards.md R250). A halted engine "changes no register
until reset" (60_exceptions.md R228). A command in progress goes on (20_memory.md R63). An idle engine accepts the
head of CMD and executes it (R51), and "simply waits" while there is none (60_exceptions.md R233). DESIGN
CHOICE on how much one step does: log entries 1, 2, 4. -/
def step (s : State) : Host.Outcome State Fault Refusal :=
  if s.rst then .next (resetEngine s)
  else if s.halt then .next s
  else if s.busy then .next (resume s)
  else match s.cmd with
    | [] => .next s
    | w :: ws => execWord w (accept ws s)

/-- Commands in the order accepted, one at a time, each to completion; after one that faults, or while one waits, no
further command is accepted (44_datamove_system.md R204). -/
def execAll : List Instr → State → Host.Outcome State Fault Refusal
  | [], s => .next s
  | i :: is, s =>
    match exec i s with
    | .next t => if t.halt || t.busy then .next t else execAll is t
    | .fault r => .fault r
    | .refused r => .refused r

/-- `s` with that word presented as the head of CMD, to an engine that is out of reset and idle, as acceptance needs
(20_memory.md R51): the very next step accepts and executes it. An idle engine has no fault on record (10_state.md
R27). From `State.reset` only CMD changes. DESIGN CHOICE, log entry 6. -/
def State.withFetchWord (s : State) (nbits w : Nat) : State :=
  { s with
    cmd := tableWord nbits w :: s.cmd, rst := false, halt := false, busy := false, cur := none, err := 0, errInfo := 0 }

/-- The launch state of a run of configuration `c` (70_reset_and_hazards.md R260, R261): the reset state, "CMD and DIN
holding the host's whole program and input". -/
def State.launch (c : Config) (program : List Word) (input : List Byte) : State :=
  { State.resetFor c with cmd := program, din := input }

end Sys2Proof.Machine
end

