-- ==== Sys2Proof/Machine/Assembler.lean ====
section
/-! DEFINITION. The assembler syntax and the pseudo-instructions (30_encoding.md R89, R90). -/

namespace Sys2Proof.Machine

/-- The pseudo-instructions with their operand ranges (R90). -/
inductive Pseudo where
  /-- `setlen v`, `0 <= v < 2^32` -/
  | setlen (v : BitVec 32)
  /-- `subk.e i`, `0 <= i <= 7` -/
  | subkE (i : Fin 8)
  /-- `subk.d r, i`, `1 <= r <= 8`, `0 <= i <= r-1` -/
  | subkD (r : RoundCount) (i : Fin r.val)
deriving DecidableEq, Repr

/-- The expansion of a pseudo-instruction (R90). LENL comes first: it clears `LEN[31:24]`. -/
def Pseudo.expand : Pseudo → List Instr
  | .setlen v =>
    if v.toNat < 2 ^ 24 then [.lenl (v.extractLsb' 0 24)]
    else [.lenl (v.extractLsb' 0 24), .lenh (v.extractLsb' 24 8)]
  | .subkE i => [.kgen (BitVec.ofNat 24 (i.val + 1))]
  | .subkD r i => [.kgen (BitVec.ofNat 24 (r.val - i.val))]

/-! ### Text (DESIGN CHOICE where R89 is silent: log entry 16) -/

/-- White space between tokens. -/
def isBlank (c : Char) : Bool := c == ' ' || c == '\t'

/-- The tokens of a line; a comma is a token of its own. -/
def tokens (line : List Char) : List (List Char) :=
  (line.foldr (fun c acc =>
    if isBlank c then [] :: acc
    else if c == ',' then [] :: [','] :: acc
    else match acc with
      | [] => [[c]]
      | t :: ts => (c :: t) :: ts) []).filter (fun t => !t.isEmpty)

/-- The value of a digit in base 16; base 10 uses the values below 10. -/
def digit (c : Char) : Option Nat :=
  let v := c.toNat
  if 48 ≤ v ∧ v ≤ 57 then some (v - 48)
  else if 65 ≤ v ∧ v ≤ 70 then some (v - 55)
  else if 97 ≤ v ∧ v ≤ 102 then some (v - 87)
  else none

/-- The natural number the digits spell in the base, most significant first. -/
def digits (base : Nat) : List Char → Nat → Option Nat
  | [], v => some v
  | c :: cs, v =>
    match digit c with
    | none => none
    | some d => if d < base then digits base cs (base * v + d) else none

/-- An operand: "a natural number in decimal (`300`) or in hexadecimal with prefix `0x` (`0x12C`)" (R89). -/
def operand : List Char → Option Nat
  | [] => none
  | ['0', 'x'] => none
  | '0' :: 'x' :: ds => digits 16 ds 0
  | ds => digits 10 ds 0

/-- A field of `bits` bits: "the assembler rejects an operand out of the field's range" (R89). -/
def field (bits : Nat) (t : List Char) : Option (BitVec bits) :=
  match operand t with
  | none => none
  | some v => if v < 2 ^ bits then some (BitVec.ofNat bits v) else none

/-- `subk.d r, i` with both operands in range (R90). -/
def asmSubkD (r i : Nat) : Option Pseudo :=
  if h : 1 ≤ r ∧ r ≤ 8 then
    if hi : i < r then some (.subkD ⟨r, h.1, h.2⟩ ⟨i, hi⟩) else none
  else none

/-- The commands a line's tokens spell: none of them for an empty line, one for a command, the expansion for a
pseudo-instruction; `none` where the assembler rejects the line (R89, R90). The round count of format R may be any
value its field spells, "so that a test can spell a ROUNDS_RANGE fault". -/
def assembleTokens : List (List Char) → Option (List Instr)
  | [] => some []
  | [['n', 'o', 'p']] => some [.nop]
  | [['r', 'o', 'u', 'n', 'd']] => some [.round]
  | [['s', 'w', 'a', 'p']] => some [.swap]
  | [['l', 'd', 'b', 'l', 'k']] => some [.ldblk]
  | [['s', 't', 'b', 'l', 'k']] => some [.stblk]
  | [['s', 't', 's', 'k']] => some [.stsk]
  | [['k', 'g', 'e', 'n'], t] => (field 24 t).map fun n => [.kgen n]
  | [['l', 'e', 'n', 'l'], t] => (field 24 t).map fun n => [.lenl n]
  | [['l', 'e', 'n', 'h'], t] => (field 8 t).map fun h => [.lenh h]
  | [['b', 'e', 'n', 'c'], t] => (field 4 t).map fun r => [.benc r]
  | [['b', 'd', 'e', 'c'], t] => (field 4 t).map fun r => [.bdec r]
  | [['s', 'e', 'n', 'c'], t] => (field 4 t).map fun r => [.senc r]
  | [['s', 'd', 'e', 'c'], t] => (field 4 t).map fun r => [.sdec r]
  | [['s', 'e', 't', 'l', 'e', 'n'], t] => (field 32 t).map fun v => (Pseudo.setlen v).expand
  | [['s', 'u', 'b', 'k', '.', 'e'], t] =>
    match operand t with
    | none => none
    | some i => if h : i < 8 then some (Pseudo.subkE ⟨i, h⟩).expand else none
  | [['s', 'u', 'b', 'k', '.', 'd'], t, [','], u] =>
    match operand t, operand u with
    | some r, some i => (asmSubkD r i).map Pseudo.expand
    | _, _ => none
  | _ => none

/-- One line: "`#` starts a comment to the end of the line" (R89). -/
def assembleLine (line : List Char) : Option (List Instr) := assembleTokens (tokens (line.takeWhile (· != '#')))

/-- The command words a program's lines spell, `none` where a line is rejected: "one command per line" (R89). -/
def assemble : List (List Char) → Option (List Word)
  | [] => some []
  | l :: ls =>
    match assembleLine l, assemble ls with
    | some is, some ws => some (is.map encode ++ ws)
    | _, _ => none

end Sys2Proof.Machine
end

