-- ==== Sys2Proof/Machine/Ports.lean ====
section
/-! DEFINITION. The outside of the engine: the port signals it drives, the status wires, and the host's moves (20_memory.md R51 to R53, R64; 10_state.md R34). -/

namespace Sys2Proof.Machine

/-! ### Signals the engine drives, between two steps -/

/-- `cmd_ready`: 1 "exactly when it is idle (`BUSY = 0` and `HALT = 0`) and not in reset" (R51). -/
def cmdReady (s : State) : Bool := !s.rst && s.idle

/-- The command in progress waits on a port in the given phase, out of reset and not halted. -/
def waitsIn (ph : Phase) (s : State) : Bool :=
  !s.rst && !s.halt && s.busy && match s.cur with
    | none => false
    | some p => p.phase == ph

/-- `din_ready`: 1 "only while a command in progress is waiting in `DinPop()`" (R52); 0 in reset (R250) and when halted
(R228). -/
def dinReady (s : State) : Bool := waitsIn .reading s

/-- `dout_valid`: 1 while a command in progress holds a byte in `DoutPush` (R53); 0 in reset (R250) and when halted
(R228). -/
def doutValid (s : State) : Bool := waitsIn .writing s

/-- The byte that the command in progress pushes next: SK for STSK, `BLK[J]` for the others. -/
def nextPush (p : Progress) (s : State) : Option Byte :=
  match p.command with
  | .stsk => some s.sk
  | _ => s.blk.list[p.j]?

/-- `dout_data`, held until the transfer (R53). While `dout_valid = 0` it is any value (U9): none here (log
entry 10). -/
def doutData (s : State) : Option Byte := if doutValid s then s.cur.bind fun p => nextPush p s else none

/-- The values on the status output wires (10_state.md R34). -/
structure StatusWires where
  busy : Bool
  halt : Bool
  err : BitVec 2
  errInfo : BitVec 32
  sk : Byte
  len : BitVec 32
  blkCnt : BitVec 26
  blkIdx : BitVec 26
  key : Byte
deriving DecidableEq, Repr

/-- The registers as the wires show them while `busy = 0` (R34). -/
def registerWires (s : State) : StatusWires :=
  { busy := s.busy, halt := s.halt, err := s.err, errInfo := s.errInfo, sk := s.sk, len := s.len,
    blkCnt := s.blkCnt, blkIdx := s.blkIdx, key := s.key }

/-- The host may read `w` on the status wires in state `s`: the registers while `BUSY = 0`; "while a command is in
progress `busy = 1`, `halt = 0`, and every other status wire may show any value" (R34, R257, U3). DESIGN CHOICE, log
entry 10. -/
def mayShow (s : State) (w : StatusWires) : Bool :=
  if s.busy then w.busy && !w.halt else w == registerWires s

/-! ### What the host can do -/

/-- The host's moves (R64). Observing changes nothing and is no move. DESIGN CHOICE, log entry 14. -/
inductive HostMove where
  /-- present one more word on CMD, behind those not yet accepted (R51) -/
  | sendWord (w : Word)
  /-- stop presenting words: of those not yet accepted, which are "still the host's" (R51), keep the first `keep` only;
  the host "may stop sending at any time" (R64) -/
  | withdrawWords (keep : Nat)
  /-- offer one more byte on DIN, behind those not yet consumed (R52) -/
  | offerByte (b : Byte)
  /-- drive `dout_ready`: accept every byte (`none`), or the next `k` bytes only (R53) -/
  | allowOutput (room : Option Nat)
  /-- drive `rst` (R250) -/
  | driveRst (level : Bool)
  /-- discard the bytes offered and never consumed (70_reset_and_hazards.md R254) -/
  | discardInput
deriving DecidableEq, Repr

/-- The effect of a host move: on the host's side of the ports only. "The host cannot write any register except
through commands" (R64). -/
def hostMove : HostMove → State → State
  | .sendWord w, s => { s with cmd := s.cmd ++ [w] }
  | .withdrawWords keep, s => { s with cmd := s.cmd.take keep }
  | .offerByte b, s => { s with din := s.din ++ [b] }
  | .allowOutput room, s => { s with doutRoom := room }
  | .driveRst level, s => { s with rst := level }
  | .discardInput, s => { s with din := [] }

/-- The host offers a sequence of bytes (R52). -/
def offer (bs : List Byte) (s : State) : State := { s with din := s.din ++ bs }

/-- The host accepts at least `k` more bytes on DOUT. -/
def State.hasRoom (s : State) (k : Nat) : Bool :=
  match s.doutRoom with
  | none => true
  | some n => decide (k ≤ n)

/-- The host's room after `k` more bytes. -/
def State.roomAfter (s : State) (k : Nat) : Option Nat := s.doutRoom.map (· - k)

/-- The port the command in progress waits on is blocked, so that the engine cannot go on by itself (R63). -/
def blocked (s : State) : Bool :=
  (dinReady s && s.din.isEmpty) || (doutValid s && s.doutRoom == some 0)

end Sys2Proof.Machine
end

