-- ==== Sys2Proof/Safety.lean ====
section
/-! DEFINITION. The invariant every step and every host move keeps, and how a run ends (70_reset_and_hazards.md R260). -/

namespace Sys2Proof

open Machine

/-- The micro-state of a command in progress is one that R32 gives that command: J below the transfers of its phase, N
the strip length of SDEC's block, and for a stream command a block below BLKCNT = BlockCount(LEN) (10_state.md R26,
R32; 43_stream.md R175, R176). -/
def progressOk (p : Progress) (s : State) : Bool :=
  let inStream := decide (s.blkCnt.toNat = blockCount s.len.toNat) && decide (s.blkIdx.toNat < s.blkCnt.toNat)
  match p.command with
  | .ldblk => p.phase == .reading && decide (p.j < 128) && p.n == 0
  | .stblk => p.phase == .writing && decide (p.j < 128) && p.n == 0
  | .stsk => p.phase == .writing && p.j == 0 && p.n == 0
  | .senc r => legalRounds r && inStream && p.n == 0 && match p.phase with
      | .reading => decide (p.j < availNow s)
      | .transforming => false
      | .writing => decide (p.j < 128)
  | .sdec r => legalRounds r && inStream && availNow s == 128 && match p.phase with
      | .reading => decide (p.j < 128) && p.n == 0
      | .transforming => false
      | .writing => decide (p.j < p.n) && p.n == pushLen s
  | .nop => false
  | .kgen _ => false
  | .round => false
  | .swap => false
  | .benc _ => false
  | .bdec _ => false
  | .lenl _ => false
  | .lenh _ => false

/-- ERRINFO agrees with ERR (10_state.md R28, 60_exceptions.md R220 to R223): 0 without a fault; a word that spells no
command; a word that spells a command with an illegal round count; or `LEN mod 128`, not 0, with BLKIDX and BLKCNT as
R223 leaves them. -/
def faultOk (s : State) : Bool :=
  match s.err.toNat with
  | 0 => s.errInfo == 0
  | 1 => match decode s.errInfo with
    | .error _ => true
    | .ok _ => false
  | 2 => match decode s.errInfo with
    | .error _ => false
    | .ok i => !i.wellFormed
  | _ => s.errInfo.toNat == s.len.toNat % 128 && s.errInfo != 0 &&
      s.blkIdx.toNat == s.len.toNat / 128 && s.blkCnt.toNat == s.len.toNat / 128 + 1

/-- The invariant of the engine. -/
structure Inv (s : State) : Prop where
  /-- a command's micro-state is held exactly while BUSY = 1 (10_state.md R32) -/
  busyHoldsCommand : s.busy = s.cur.isSome
  /-- "`BUSY` and `HALT` are never both 1" (R30) -/
  notBusyAndHalted : (s.busy && s.halt) = false
  /-- "`ERR != 0` exactly when `HALT = 1`" (R27) -/
  haltIffErr : s.halt = (s.err != 0)
  /-- "`0 <= BLKIDX <= BLKCNT` always" (R26) -/
  idxLeCnt : s.blkIdx.toNat ≤ s.blkCnt.toNat
  /-- BLKCNT is "at most 2^25" (R26) -/
  cntBound : s.blkCnt.toNat ≤ 2 ^ 25
  /-- the micro-state of the command in progress (R32) -/
  progress : ∀ p, s.cur = some p → progressOk p s = true
  /-- ERRINFO (R28) -/
  fault : faultOk s = true

/-! ### Runs -/

/-- What can happen next: a step of the engine, or a move of the host. -/
inductive Event where
  | engine
  | host (m : HostMove)
deriving DecidableEq, Repr

/-- The state after an event. A step always answers a next state; were it to stop, nothing would change. -/
def Event.apply : Event → State → State
  | .engine, s => match step s with
    | .next t => t
    | .fault _ => s
    | .refused _ => s
  | .host m, s => hostMove m s

/-- The state after a sequence of events. -/
def runEvents : List Event → State → State
  | [], s => s
  | e :: es, s => runEvents es (e.apply s)

/-- "The run has *ended well* when the command list is exhausted ..., the engine is idle (`BUSY = 0`, `HALT = 0`, hence
`ERR = 0`) and the host has accepted every byte pushed" (R260): while the engine is idle it holds no byte back. -/
def endedWell (s : State) : Bool := s.cmd.isEmpty && s.idle

/-- "The run has *ended in a fault* when `HALT = 1`" (R260). -/
def endedInFault (s : State) : Bool := s.halt

/-- "The run is *stuck* when `BUSY = 1` and the command is waiting on a port that the host will never serve" (R260):
this state is one that only the host can leave. -/
def waitsOnHost (s : State) : Bool := s.busy && blocked s

end Sys2Proof
end

