-- ==== Sys2Proof/Certificates/Slice0/Obligations.lean ====
section
/-! DEFINITION. The statements for the provers, each from the rule of spec/ its docstring names. -/

open Sys2Proof Sys2Proof.Machine

/-! ### Encoding (30_encoding.md) -/

/-- Decoding an encoded command gives it back, every operand at every value its field spells (R81, R82, R84). -/
def Obligations.DecodeOfEncode : Prop := ∀ i : Instr, decode (encode i) = .ok i

/-- A word that decodes is the word of the command it decodes to: "no word executes as another named command" (R88). -/
def Obligations.EncodeOfDecode : Prop := ∀ (w : Word) (i : Instr), decode w = .ok i → encode i = w

/-- R84: a word spells the command of a row exactly when `(w AND mask) = match`, and no word matches two rows. -/
def Obligations.WordSpellsRowByMaskAndMatch : Prop :=
  (∀ (w : Word) (m : String),
    (∃ i, decode w = .ok i ∧ i.mnemonic = m) ↔
      ∃ row ∈ opcodeTable, row.mnemonic = m ∧ w &&& row.mask = row.pattern) ∧
  ∀ (w : Word), ∀ a ∈ opcodeTable, ∀ b ∈ opcodeTable,
    w &&& a.mask = a.pattern → w &&& b.mask = b.pattern → a = b

/-- R83: `n = zext(w[23:0])`, `h = zext(w[7:0])`, `r = zext(w[27:24])`, as the natural numbers the bits spell. -/
def Obligations.OperandIsNaturalOfField : Prop :=
  ∀ (w : Word) (i : Instr), decode w = .ok i →
    match i with
    | .kgen n => n.toNat = w.toNat % 2 ^ 24
    | .lenl n => n.toNat = w.toNat % 2 ^ 24
    | .lenh h => h.toNat = w.toNat % 2 ^ 8
    | .benc r => r.toNat = w.toNat / 2 ^ 24 % 2 ^ 4
    | .bdec r => r.toNat = w.toNat / 2 ^ 24 % 2 ^ 4
    | .senc r => r.toNat = w.toNat / 2 ^ 24 % 2 ^ 4
    | .sdec r => r.toNat = w.toNat / 2 ^ 24 % 2 ^ 4
    | .nop | .round | .swap | .ldblk | .stblk | .stsk => True

/-- R85, steps 1 to 4, of the word an idle engine accepts: reserved op, must-be-zero bits, round count, execute. The word
leaves CMD (R51), and a fault is entered as R228 says. `accepted` is the index of R31 that the model keeps (log entry 5). -/
def Obligations.StepFollowsDecodeProcedure : Prop :=
  ∀ (s : State) (w : Word) (ws : List Word), s.rst = false → s.idle = true → s.cmd = w :: ws →
    (w.toNat / 2 ^ 28 = 0x0 ∨ w.toNat / 2 ^ 28 = 0xE ∨ w.toNat / 2 ^ 28 = 0xF →
      step s = .next { s with
        cmd := ws, accepted := s.accepted + 1, err := 1, errInfo := w, halt := true, busy := false, cur := none }) ∧
    ∀ row ∈ opcodeTable, row.pattern.toNat / 2 ^ 28 = w.toNat / 2 ^ 28 →
      (w &&& row.mask ≠ row.pattern →
        step s = .next { s with
          cmd := ws, accepted := s.accepted + 1, err := 1, errInfo := w, halt := true, busy := false, cur := none }) ∧
      (w &&& row.mask = row.pattern → row.format = .r →
        w.toNat / 2 ^ 24 % 2 ^ 4 < 1 ∨ 8 < w.toNat / 2 ^ 24 % 2 ^ 4 →
        step s = .next { s with
          cmd := ws, accepted := s.accepted + 1, err := 2, errInfo := w, halt := true, busy := false, cur := none }) ∧
      (w &&& row.mask = row.pattern →
        (row.format = .r → 1 ≤ w.toNat / 2 ^ 24 % 2 ^ 4 ∧ w.toNat / 2 ^ 24 % 2 ^ 4 ≤ 8) →
        ∃ i, i.wellFormed = true ∧ encode i = w ∧ i.mnemonic = row.mnemonic ∧ step s = exec i (accept ws s))

/-- The worked encodings of R89, and one word for each other command, decode to the command they stand for. -/
def Obligations.WorkedEncodingsDecode : Prop :=
  decode 0x20000001 = .ok (.kgen 1) ∧ decode 0x30000000 = .ok .round ∧ decode 0x53000000 = .ok (.benc 3) ∧
  decode 0xA000012C = .ok (.lenl 300) ∧ decode 0xB0000001 = .ok (.lenh 1) ∧ decode 0xC8000000 = .ok (.senc 8) ∧
  decode 0xD1000000 = .ok (.sdec 1) ∧ decode 0x10000000 = .ok .nop ∧ decode 0x40000000 = .ok .swap ∧
  decode 0x63000000 = .ok (.bdec 3) ∧ decode 0x70000000 = .ok .ldblk ∧ decode 0x80000000 = .ok .stblk ∧
  decode 0x90000000 = .ok .stsk

/-- R90: what each pseudo-instruction expands to, and what its expansion leaves: `setlen v` leaves `LEN = v`, `subk.e i`
and `subk.d r, i` load the subkey of that round, and nothing else changes (with R116, R173, R174). That the commands run
from any state not halted, a busy one too, is the model's choice (log entry 12). -/
def Obligations.PseudoInstructionsLoadTheirValue : Prop :=
  (∀ v : BitVec 32, (Pseudo.setlen v).expand =
    if v.toNat < 2 ^ 24 then [.lenl (BitVec.ofNat 24 v.toNat)]
    else [.lenl (BitVec.ofNat 24 (v.toNat % 2 ^ 24)), .lenh (BitVec.ofNat 8 (v.toNat / 2 ^ 24))]) ∧
  (∀ i : Fin 8, (Pseudo.subkE i).expand = [.kgen (BitVec.ofNat 24 (i.val + 1))]) ∧
  (∀ (r : RoundCount) (i : Fin r.val), (Pseudo.subkD r i).expand = [.kgen (BitVec.ofNat 24 (r.val - i.val))]) ∧
  (∀ (v : BitVec 32) (s : State), s.halt = false →
    execAll (Pseudo.setlen v).expand s = .next { s with len := v, busy := false, cur := none }) ∧
  (∀ (i : Fin 8) (s : State), s.halt = false →
    execAll (Pseudo.subkE i).expand s =
      .next { s with sk := subkeyEnc s.key i.val, busy := false, cur := none }) ∧
  ∀ (r : RoundCount) (i : Fin r.val) (s : State), s.halt = false →
    execAll (Pseudo.subkD r i).expand s =
      .next { s with sk := subkeyDec s.key r.val i.val, busy := false, cur := none }

/-! ### KeySchedule (40_keyschedule.md) -/

/-- R110, whole: the defining formula on naturals, the bit by bit form, the repeated single rotation, and the laws. -/
def Obligations.RotlIsCircularLeftRotation : Prop :=
  (∀ (b : Byte) (n : Nat), (rotl8 b n).toNat =
    if n % 8 = 0 then b.toNat else (b.toNat <<< (n % 8) ||| b.toNat >>> (8 - n % 8)) &&& 0xFF) ∧
  (∀ (b : Byte) (n i : Nat), i < 8 → (rotl8 b n).getLsbD ((i + n % 8) % 8) = b.getLsbD i) ∧
  (∀ (b : Byte) (n : Nat), rotl8 b (n + 1) = (rotl8 b n <<< 1) ||| (rotl8 b n >>> 7)) ∧
  (∀ b : Byte, rotl8 b 0 = b) ∧
  (∀ (b : Byte) (n : Nat), rotl8 b (n + 8) = rotl8 b n) ∧
  (∀ (b : Byte) (m n : Nat), rotl8 (rotl8 b m) n = rotl8 b (m + n)) ∧
  (∀ (b : Byte) (n : Nat), ((List.range 8).filter fun i => (rotl8 b n).getLsbD i).length =
    ((List.range 8).filter fun i => b.getLsbD i).length) ∧
  (∀ n : Nat, rotl8 0x00 n = 0x00 ∧ rotl8 0xFF n = 0xFF) ∧
  rotl8 0x96 1 = 0x2D

/-- R114: the decrypt subkey sequence is the encrypt subkey sequence reversed. -/
def Obligations.DecryptSubkeysAreEncryptSubkeysReversed : Prop :=
  ∀ (K : Byte) (r : RoundCount) (i : Nat), i < r.val → subkeyEnc K i = subkeyDec K r.val (r.val - 1 - i)

/-- R23, R115: no event of a run changes KEY, reset of a configuration leaves its BASE_KEY there, and this hardware's is
0x96 (KEY as a field that no operation writes, and the configuration: log entry 7); the subkeys of this key, all eight
distinct. -/
def Obligations.SubkeysOfThisHardware : Prop :=
  (∀ (es : List Event) (s : State), (runEvents es s).key = s.key) ∧
  (∀ c : Config, (State.resetFor c).key = c.baseKey) ∧ State.reset.key = 0x96 ∧
  ((List.range 8).map fun i => subkeyEnc 0x96 i) = [0x2D, 0x5A, 0xB4, 0x69, 0xD2, 0xA5, 0x4B, 0x96] ∧
  (∀ r : RoundCount, ((List.range r.val).map fun i => subkeyDec 0x96 r.val i) =
    (([0x2D, 0x5A, 0xB4, 0x69, 0xD2, 0xA5, 0x4B, 0x96] : List Byte).take r.val).reverse) ∧
  (∀ n : Nat, rotl8 0x96 n =
    ([0x96, 0x2D, 0x5A, 0xB4, 0x69, 0xD2, 0xA5, 0x4B] : List Byte).getD (n % 8) 0) ∧
  ([0x96, 0x2D, 0x5A, 0xB4, 0x69, 0xD2, 0xA5, 0x4B] : List Byte).Nodup

/-- KGEN completes with `SK <- rotl8(KEY, n)`, of which only `n mod 8` matters, and changes nothing else (R116). -/
def Obligations.KgenLoadsRotatedKey : Prop :=
  ∀ (n : BitVec 24) (s : State),
    exec (.kgen n) s = .next { s with sk := rotl8 s.key n.toNat, busy := false, cur := none } ∧
    rotl8 s.key n.toNat = rotl8 s.key (n.toNat % 8)

/-! ### RoundFunction (41_round.md) -/

/-- R130, lane by lane: `newLeft[j] = right[j]`, `newRight[j] = left[j] ^ right[j] ^ k`. -/
def Obligations.RoundActsLaneByLane : Prop :=
  ∀ (l r : Half) (k : Byte) (j : Fin 64),
    (roundHalves l r k).1.get j = r.get j ∧ (roundHalves l r k).2.get j = l.get j ^^^ r.get j ^^^ k

/-- R134: the round with the same key on the swapped output returns the swapped input. -/
def Obligations.RoundUndoneBySwappedRound : Prop :=
  ∀ (a b a' b' : Half) (k : Byte), (a', b') = roundHalves a b k → roundHalves b' a' k = (b, a)

/-- ROUND completes; every cell is the value R132 gives it from the values before the command, and nothing else
changes. -/
def Obligations.RoundCommandUpdatesBlock : Prop :=
  ∀ s : State, ∃ b : Block,
    (∀ j : Fin 64, b.get (cellL j) = s.blk.get (cellR j) ∧
      b.get (cellR j) = s.blk.get (cellL j) ^^^ s.blk.get (cellR j) ^^^ s.sk) ∧
    exec .round s = .next { s with blk := b, busy := false, cur := none }

/-- R132's corner case: three ROUNDs with `SK = 0x00` restore BLK. -/
def Obligations.ThreeKeylessRoundsRestoreBlock : Prop :=
  ∀ s : State, s.halt = false → s.sk = 0x00 →
    execAll [.round, .round, .round] s = .next { s with busy := false, cur := none }

/-- SWAP completes with the halves exchanged and nothing else changed; two SWAPs restore BLK (R133). -/
def Obligations.SwapCommandExchangesHalves : Prop :=
  (∀ s : State, ∃ b : Block,
    (∀ j : Fin 64, b.get (cellL j) = s.blk.get (cellR j) ∧ b.get (cellR j) = s.blk.get (cellL j)) ∧
    exec .swap s = .next { s with blk := b, busy := false, cur := none }) ∧
  ∀ s : State, s.halt = false → execAll [.swap, .swap] s = .next { s with busy := false, cur := none }

/-! ### BlockCipher (42_blockcipher.md) -/

/-- BENC with a legal count completes: `BLK <- Transform(BLK, KEY, r, Encrypt)`, `SK = rotl8(KEY, r)`, nothing else
changes (R151). -/
def Obligations.BencTransformsBlock : Prop :=
  ∀ (r : RoundCount) (s : State),
    exec (.benc (BitVec.ofNat 4 r.val)) s = .next { s with
      blk := transform s.blk s.key r .encrypt, sk := rotl8 s.key r.val, busy := false, cur := none }

/-- BDEC with a legal count completes: `BLK <- Transform(BLK, KEY, r, Decrypt)`, `SK = rotl8(KEY, 1)`, nothing else
changes (R152). -/
def Obligations.BdecTransformsBlock : Prop :=
  ∀ (r : RoundCount) (s : State),
    exec (.bdec (BitVec.ofNat 4 r.val)) s = .next { s with
      blk := transform s.blk s.key r .decrypt, sk := rotl8 s.key 1, busy := false, cur := none }

/-- R153: each direction inverts the other, for any block, count and key; in command terms, BENC r then BDEC r restores
BLK and leaves `SK = rotl8(KEY, 1)`. -/
def Obligations.TransformIsInvertible : Prop :=
  (∀ (B : Block) (K : Byte) (r : RoundCount),
    transform (transform B K r .encrypt) K r .decrypt = B ∧ transform (transform B K r .decrypt) K r .encrypt = B) ∧
  ∀ (r : RoundCount) (s : State), s.halt = false →
    execAll [.benc (BitVec.ofNat 4 r.val), .bdec (BitVec.ofNat 4 r.val)] s =
      .next { s with sk := rotl8 s.key 1, busy := false, cur := none }

/-- The Encrypt columns of R154's first table: `oL` and `oR` for 1 to 8 rounds, `e n` the key rotated `n` times. -/
def closedEncrypt (e : Nat → Byte) (l r0 : Byte) : Nat → Byte × Byte
  | 1 => (l ^^^ r0 ^^^ e 1, r0)
  | 2 => (l ^^^ e 1 ^^^ e 2, l ^^^ r0 ^^^ e 1)
  | 3 => (r0 ^^^ e 2 ^^^ e 3, l ^^^ e 1 ^^^ e 2)
  | 4 => (l ^^^ r0 ^^^ e 1 ^^^ e 3 ^^^ e 4, r0 ^^^ e 2 ^^^ e 3)
  | 5 => (l ^^^ e 1 ^^^ e 2 ^^^ e 4 ^^^ e 5, l ^^^ r0 ^^^ e 1 ^^^ e 3 ^^^ e 4)
  | 6 => (r0 ^^^ e 2 ^^^ e 3 ^^^ e 5 ^^^ e 6, l ^^^ e 1 ^^^ e 2 ^^^ e 4 ^^^ e 5)
  | 7 => (l ^^^ r0 ^^^ e 1 ^^^ e 3 ^^^ e 4 ^^^ e 6 ^^^ e 7, r0 ^^^ e 2 ^^^ e 3 ^^^ e 5 ^^^ e 6)
  | 8 => (l ^^^ e 1 ^^^ e 2 ^^^ e 4 ^^^ e 5 ^^^ e 7 ^^^ e 8, l ^^^ r0 ^^^ e 1 ^^^ e 3 ^^^ e 4 ^^^ e 6 ^^^ e 7)
  | _ => (0, 0)

/-- The `K=0x96` columns of R154's first table. -/
def closedEncrypt96 (l r0 : Byte) : Nat → Byte × Byte
  | 1 => (l ^^^ r0 ^^^ 0x2D, r0)
  | 2 => (l ^^^ 0x77, l ^^^ r0 ^^^ 0x2D)
  | 3 => (r0 ^^^ 0xEE, l ^^^ 0x77)
  | 4 => (l ^^^ r0 ^^^ 0xF0, r0 ^^^ 0xEE)
  | 5 => (l ^^^ 0xCC, l ^^^ r0 ^^^ 0xF0)
  | 6 => (r0 ^^^ 0x99, l ^^^ 0xCC)
  | 7 => (l ^^^ r0 ^^^ 0x1E, r0 ^^^ 0x99)
  | 8 => (l ^^^ 0x11, l ^^^ r0 ^^^ 0x1E)
  | _ => (0, 0)

/-- R154's second table: Decrypt, `K = 0x96`. -/
def closedDecrypt96 (cl cr : Byte) : Nat → Byte × Byte
  | 1 => (cl ^^^ cr ^^^ 0x2D, cr)
  | 2 => (cl ^^^ 0x77, cl ^^^ cr ^^^ 0x5A)
  | 3 => (cr ^^^ 0x77, cl ^^^ 0xEE)
  | 4 => (cl ^^^ cr ^^^ 0x1E, cr ^^^ 0xEE)
  | 5 => (cl ^^^ 0xCC, cl ^^^ cr ^^^ 0x3C)
  | 6 => (cr ^^^ 0xCC, cl ^^^ 0x99)
  | 7 => (cl ^^^ cr ^^^ 0x87, cr ^^^ 0x99)
  | 8 => (cl ^^^ 0x11, cl ^^^ cr ^^^ 0x0F)
  | _ => (0, 0)

/-- R154: every row of both tables, at every byte position. -/
def Obligations.TransformHasClosedForms : Prop :=
  ∀ (B : Block) (r : RoundCount) (j : Fin 64),
    (∀ K : Byte, ((transform B K r .encrypt).get (cellL j), (transform B K r .encrypt).get (cellR j)) =
      closedEncrypt (fun n => rotl8 K n) (B.get (cellL j)) (B.get (cellR j)) r.val) ∧
    ((transform B 0x96 r .encrypt).get (cellL j), (transform B 0x96 r .encrypt).get (cellR j)) =
      closedEncrypt96 (B.get (cellL j)) (B.get (cellR j)) r.val ∧
    ((transform B 0x96 r .decrypt).get (cellL j), (transform B 0x96 r .decrypt).get (cellR j)) =
      closedDecrypt96 (B.get (cellL j)) (B.get (cellR j)) r.val

/-- `kgen 1`, `round`, `kgen 2`, `round`, ..., `kgen r`, `round`, `swap` (R155). -/
def encryptPrimitives (r : Nat) : List Instr :=
  ((List.range r).flatMap fun i => [.kgen (BitVec.ofNat 24 (i + 1)), .round]) ++ [.swap]

/-- `kgen r`, `round`, `kgen (r-1)`, `round`, ..., `kgen 1`, `round`, `swap` (R155). -/
def decryptPrimitives (r : Nat) : List Instr :=
  ((List.range r).flatMap fun i => [.kgen (BitVec.ofNat 24 (r - i)), .round]) ++ [.swap]

/-- R155: a block command has the same effect on the whole state as its primitive commands in sequence. -/
def Obligations.BlockCommandsArePrimitiveSequences : Prop :=
  ∀ (r : RoundCount) (s : State), s.halt = false →
    execAll (encryptPrimitives r.val) s = exec (.benc (BitVec.ofNat 4 r.val)) s ∧
    execAll (decryptPrimitives r.val) s = exec (.bdec (BitVec.ofNat 4 r.val)) s

/-- R156: with `r` 0 or 9..15 no block or stream command runs; each raises ROUNDS_RANGE with its own word, and nothing
else changes (R222). -/
def Obligations.IllegalRoundCountsOnlyRaise : Prop :=
  ∀ (r : BitVec 4) (s : State), r.toNat < 1 ∨ 8 < r.toNat →
    ∀ i ∈ [Instr.benc r, .bdec r, .senc r, .sdec r],
      exec i s = .next { s with
        err := 2, errInfo := encode i, halt := true, busy := false, cur := none }

/-! ### StreamProcessor (43_stream.md) -/

/-- LENL completes with `LEN <- zext_32(n)`, and changes nothing else (R173). -/
def Obligations.LenlSetsLength : Prop :=
  ∀ (n : BitVec 24) (s : State),
    exec (.lenl n) s = .next { s with len := BitVec.ofNat 32 n.toNat, busy := false, cur := none }

/-- LENH completes with `LEN <- h * 2^24 + LEN[23:0]`, and changes nothing else (R174). -/
def Obligations.LenhSetsHighByte : Prop :=
  ∀ (h : BitVec 8) (s : State),
    exec (.lenh h) s = .next { s with
      len := BitVec.ofNat 32 (h.toNat * 2 ^ 24 + s.len.toNat % 2 ^ 24), busy := false, cur := none }

/-- R170: `BlockCount(n)` is the least number of 128-byte blocks that hold `n` bytes, its form in bits, and `Avail`. -/
def Obligations.BlockCountIsCeiling : Prop :=
  (∀ n : Nat, n ≤ 128 * blockCount n ∧ ∀ m, n ≤ 128 * m → blockCount n ≤ m) ∧
  (∀ n : BitVec 32, blockCount n.toNat =
    (n.extractLsb' 7 25).toNat + if n.extractLsb' 0 7 = 0 then 0 else 1) ∧
  ∀ n i : Nat, i < blockCount n →
    avail n i = (if i + 1 < blockCount n ∨ n % 128 = 0 then 128 else n % 128) ∧ 0 < avail n i

/-- R171: `Pad(c) = c ‖ 0x00×(128 - |c|)`; `Pad` of 128 bytes is those bytes, and no block is added when the stream
length is a multiple of 128. -/
def Obligations.PadAppendsZeros : Prop :=
  (∀ c : List Byte, 1 ≤ c.length → c.length ≤ 128 →
    (pad c).list = c ++ List.replicate (128 - c.length) 0x00) ∧
  (∀ B : Block, pad B.list = B) ∧
  ∀ m : Nat, blockCount (128 * m) = m

/-- R172: `StripLen(B)` is 0 if every byte is zero, and otherwise one more than the largest index holding a non-zero
byte. -/
def Obligations.StripLenIsPastLastNonzero : Prop :=
  ∀ B : Block,
    ((∀ i : Fin 128, B.get i = 0x00) → stripLen B = 0) ∧
    (∀ i : Fin 128, B.get i ≠ 0x00 → (∀ j : Fin 128, i < j → B.get j = 0x00) → stripLen B = i.val + 1) ∧
    strip B = B.list.take (stripLen B)

/-- SENC with a legal count, `LEN` bytes offered and its output accepted completes: it consumes exactly `LEN` bytes,
pushes exactly `StreamEnc(P, KEY, r)`, leaves the counters, BLK and SK as R175 says, and changes nothing else (R175,
R177). `doutRoom` is the model's form of the host's `dout_ready` (log entry 3). -/
def Obligations.SencPushesEncryptedStream : Prop :=
  ∀ (r : RoundCount) (s : State), s.len.toNat ≤ s.din.length →
    s.hasRoom (128 * blockCount s.len.toNat) = true →
    exec (.senc (BitVec.ofNat 4 r.val)) s = .next { s with
      blkCnt := BitVec.ofNat 26 (blockCount s.len.toNat),
      blkIdx := BitVec.ofNat 26 (blockCount s.len.toNat),
      blk := if s.len = 0 then s.blk
        else blockOf (s.din.take s.len.toNat) s.key r .encrypt (blockCount s.len.toNat - 1),
      sk := if s.len = 0 then s.sk else rotl8 s.key r.val,
      din := s.din.drop s.len.toNat,
      dout := s.dout ++ streamEnc (s.din.take s.len.toNat) s.key r,
      doutRoom := s.roomAfter (128 * blockCount s.len.toNat),
      busy := false, cur := none }

/-- SDEC with a legal count and `LEN` a multiple of 128, its input offered and its output accepted, completes: it
consumes exactly `LEN` bytes, pushes exactly `StreamDec(C, KEY, r)`, leaves BLK unstripped, and changes nothing else
(R176, R177). `doutRoom`: log entry 3. -/
def Obligations.SdecPushesDecryptedStream : Prop :=
  ∀ (r : RoundCount) (s : State), s.len.toNat % 128 = 0 → s.len.toNat ≤ s.din.length →
    ∃ out, streamDec (s.din.take s.len.toNat) s.key r = some out ∧
      (s.hasRoom out.length = true →
        exec (.sdec (BitVec.ofNat 4 r.val)) s = .next { s with
          blkCnt := BitVec.ofNat 26 (s.len.toNat / 128),
          blkIdx := BitVec.ofNat 26 (s.len.toNat / 128),
          blk := if s.len = 0 then s.blk
            else blockOf (s.din.take s.len.toNat) s.key r .decrypt (s.len.toNat / 128 - 1),
          sk := if s.len = 0 then s.sk else rotl8 s.key 1,
          din := s.din.drop s.len.toNat,
          dout := s.dout ++ out,
          doutRoom := s.roomAfter out.length,
          busy := false, cur := none })

/-- R223: with `LEN` no multiple of 128, SDEC decrypts and pushes the complete blocks in full, unstripped, leaves the
short block on DIN, and raises FORMAT(`LEN mod 128`). `doutRoom`: log entry 3. -/
def Obligations.SdecFaultsOnShortBlock : Prop :=
  ∀ (r : RoundCount) (s : State), s.len.toNat % 128 ≠ 0 →
    128 * (s.len.toNat / 128) ≤ s.din.length → s.hasRoom (128 * (s.len.toNat / 128)) = true →
    exec (.sdec (BitVec.ofNat 4 r.val)) s = .next { s with
      blkCnt := BitVec.ofNat 26 (s.len.toNat / 128 + 1),
      blkIdx := BitVec.ofNat 26 (s.len.toNat / 128),
      blk := if s.len.toNat < 128 then s.blk
        else blockOf (s.din.take (128 * (s.len.toNat / 128))) s.key r .decrypt (s.len.toNat / 128 - 1),
      sk := if s.len.toNat < 128 then s.sk else rotl8 s.key 1,
      din := s.din.drop (128 * (s.len.toNat / 128)),
      dout := s.dout ++
        decryptedBlocks (s.din.take (128 * (s.len.toNat / 128))) s.key r (s.len.toNat / 128),
      doutRoom := s.roomAfter (128 * (s.len.toNat / 128)),
      err := 3, errInfo := BitVec.ofNat 32 (s.len.toNat % 128), halt := true, busy := false, cur := none }

/-- R180: with `LEN = 0` both stream commands zero the counters, touch neither port, change neither BLK nor SK, and
complete without fault. -/
def Obligations.EmptyStreamTouchesNothing : Prop :=
  ∀ (r : RoundCount) (s : State), s.len = 0 →
    exec (.senc (BitVec.ofNat 4 r.val)) s = .next { s with blkCnt := 0, blkIdx := 0, busy := false, cur := none } ∧
    exec (.sdec (BitVec.ofNat 4 r.val)) s = .next { s with blkCnt := 0, blkIdx := 0, busy := false, cur := none }

/-- R178 (a), (b), (d), (e): ciphertext length, plaintext length bounds, block independence, ECB equivalence. -/
def Obligations.StreamLengthsAndBlockIndependence : Prop :=
  (∀ (P : List Byte) (K : Byte) (r : RoundCount), (streamEnc P K r).length = 128 * blockCount P.length) ∧
  (∀ (C out : List Byte) (K : Byte) (r : RoundCount), 1 ≤ C.length → streamDec C K r = some out →
    C.length - 128 ≤ out.length ∧ out.length ≤ C.length) ∧
  (∀ (P Q : List Byte) (K : Byte) (r : RoundCount) (k : Nat), P.length = Q.length →
    (∀ i, i ≠ k → chunk P i = chunk Q i) →
    ∀ i, i ≠ k → chunk (streamEnc P K r) i = chunk (streamEnc Q K r) i) ∧
  ∀ (P Q : List Byte) (K : Byte) (r : RoundCount) (i k : Nat), i < blockCount P.length → k < blockCount Q.length →
    pad (chunk P i) = pad (chunk Q k) → chunk (streamEnc P K r) i = chunk (streamEnc Q K r) k

/-- R179: decrypting an encrypted stream gives the plaintext with the trailing zeros of its padded last block removed;
that is the plaintext itself exactly when it is empty or its last byte is not 0x00. -/
def Obligations.StreamRoundTripLosesTrailingZeros : Prop :=
  ∀ (P : List Byte) (K : Byte) (r : RoundCount),
    streamDec (streamEnc P K r) K r = some (P.take (128 * (blockCount P.length - 1)) ++
      strip (pad (P.drop (128 * (blockCount P.length - 1))))) ∧
    (streamDec (streamEnc P K r) K r = some P ↔ P = [] ∨ ∃ b, P.getLast? = some b ∧ b ≠ 0x00)

/-- R33: what a stream command consumes, pushes and faults with does not depend on the BLK and SK it starts from. -/
def Obligations.StreamIgnoresEarlierBlockAndSubkey : Prop :=
  ∀ (r : BitVec 4) (s t t' : State) (b : Block) (k : Byte),
    (exec (.senc r) s = .next t → exec (.senc r) { s with blk := b, sk := k } = .next t' →
      t.dout = t'.dout ∧ t.din = t'.din ∧ t.blkIdx = t'.blkIdx ∧ t.cur = t'.cur ∧ t.err = t'.err ∧
      t.errInfo = t'.errInfo) ∧
    (exec (.sdec r) s = .next t → exec (.sdec r) { s with blk := b, sk := k } = .next t' →
      t.dout = t'.dout ∧ t.din = t'.din ∧ t.blkIdx = t'.blkIdx ∧ t.cur = t'.cur ∧ t.err = t'.err ∧
      t.errInfo = t'.errInfo)

/-! ### Data movement (44_datamove_system.md) -/

/-- NOP completes and changes nothing (R200). -/
def Obligations.NopOnlyCompletes : Prop :=
  ∀ s : State, exec .nop s = .next { s with busy := false, cur := none }

/-- LDBLK with 128 bytes offered completes: the first goes to `BLK[0]`, exactly 128 are consumed, nothing else changes
(R201). -/
def Obligations.LdblkLoadsInAscendingOrder : Prop :=
  ∀ s : State, 128 ≤ s.din.length → ∃ b : Block, b.list = s.din.take 128 ∧
    exec .ldblk s = .next { s with blk := b, din := s.din.drop 128, busy := false, cur := none }

/-- STBLK with its output accepted completes: it pushes the 128 bytes of BLK, `BLK[0]` first, and nothing else changes
(R202). `doutRoom`: log entry 3. -/
def Obligations.StblkPushesInAscendingOrder : Prop :=
  ∀ s : State, s.hasRoom 128 = true →
    exec .stblk s = .next { s with
      dout := s.dout ++ s.blk.list, doutRoom := s.roomAfter 128, busy := false, cur := none }

/-- STSK with its output accepted completes: it pushes the one byte SK, and nothing else changes (R203).
`doutRoom`: log entry 3. -/
def Obligations.StskPushesSubkey : Prop :=
  ∀ s : State, s.hasRoom 1 = true →
    exec .stsk s = .next { s with
      dout := s.dout ++ [s.sk], doutRoom := s.roomAfter 1, busy := false, cur := none }

/-! ### Waiting on a port (20_memory.md) -/

/-- R63, R201: LDBLK with too few bytes offered waits with BUSY = 1, "with the cells already loaded holding their new
values and the rest their old ones"; nothing else changes. That one step goes as far as the port allows, and the form of
the micro-state, are the model's (log entries 1, 9). -/
def Obligations.LdblkWaitsForInput : Prop :=
  ∀ s : State, s.din.length < 128 → ∃ b : Block, b.list = s.din ++ s.blk.list.drop s.din.length ∧
    exec .ldblk s = .next { s with
      blk := b, din := [], busy := true, cur := some ⟨.ldblk, .reading, s.din.length, 0⟩ }

/-- R53, R63: STBLK and STSK wait with BUSY = 1 when the host holds back, having pushed the bytes it accepted; nothing
else changes. `doutRoom`, the step and the micro-state: log entries 1, 3, 9. -/
def Obligations.StoresWaitForHost : Prop :=
  (∀ (s : State) (k : Nat), s.doutRoom = some k → k < 128 →
    exec .stblk s = .next { s with
      dout := s.dout ++ s.blk.list.take k, doutRoom := some 0, busy := true,
      cur := some ⟨.stblk, .writing, k, 0⟩ }) ∧
  ∀ s : State, s.doutRoom = some 0 →
    exec .stsk s = .next { s with busy := true, cur := some ⟨.stsk, .writing, 0, 0⟩ }

/-- R60, R63: SENC with `d < LEN` bytes offered waits in the reading phase of block `d div 128`: every earlier block has
been pushed in full, and nothing of this one. `doutRoom`, the step and the micro-state: log entries 1, 3, 9. -/
def Obligations.SencWaitsBetweenBlocksInOrder : Prop :=
  ∀ (r : RoundCount) (s : State), s.din.length < s.len.toNat →
    s.hasRoom (128 * (s.din.length / 128)) = true →
    ∃ b : Block,
      b.list = s.din.drop (128 * (s.din.length / 128)) ++
        (if s.din.length < 128 then s.blk
          else blockOf s.din s.key r .encrypt (s.din.length / 128 - 1)).list.drop (s.din.length % 128) ∧
      exec (.senc (BitVec.ofNat 4 r.val)) s = .next { s with
        blkCnt := BitVec.ofNat 26 (blockCount s.len.toNat),
        blkIdx := BitVec.ofNat 26 (s.din.length / 128),
        blk := b,
        sk := if s.din.length < 128 then s.sk else rotl8 s.key r.val,
        din := [],
        dout := s.dout ++
          (List.range (s.din.length / 128)).flatMap fun i => (blockOf s.din s.key r .encrypt i).list,
        doutRoom := s.roomAfter (128 * (s.din.length / 128)),
        busy := true,
        cur := some ⟨.senc (BitVec.ofNat 4 r.val), .reading, s.din.length % 128, 0⟩ }

/-- R60, R63: SENC whose host accepts only `k` bytes of output, its input offered up to block `k div 128`, waits in the
writing phase of that block: that block's input is consumed, and nothing of the next block's. `doutRoom`, the step and the micro-state: log entries 1, 3,
9. -/
def Obligations.SencHoldsInputWhileOutputWaits : Prop :=
  ∀ (r : RoundCount) (s : State) (k : Nat), s.doutRoom = some k → k < 128 * blockCount s.len.toNat →
    min s.len.toNat (128 * (k / 128 + 1)) ≤ s.din.length →
    exec (.senc (BitVec.ofNat 4 r.val)) s = .next { s with
      blkCnt := BitVec.ofNat 26 (blockCount s.len.toNat),
      blkIdx := BitVec.ofNat 26 (k / 128),
      blk := blockOf (s.din.take s.len.toNat) s.key r .encrypt (k / 128),
      sk := rotl8 s.key r.val,
      din := s.din.drop (min s.len.toNat (128 * (k / 128 + 1))),
      dout := s.dout ++ (streamEnc (s.din.take s.len.toNat) s.key r).take k,
      doutRoom := some 0,
      busy := true,
      cur := some ⟨.senc (BitVec.ofNat 4 r.val), .writing, k % 128, 0⟩ }

/-- R60, R63, for SDEC: with `d` bytes offered, not all of the complete blocks, it waits in the reading phase of block
`d div 128`: every earlier block has been pushed in full, unstripped (none of them is the last), and nothing of this one.
`doutRoom`, the step and the micro-state: log entries 1, 3, 9. -/
def Obligations.SdecWaitsBetweenBlocksInOrder : Prop :=
  ∀ (r : RoundCount) (s : State), s.din.length < 128 * (s.len.toNat / 128) →
    s.hasRoom (128 * (s.din.length / 128)) = true →
    ∃ b : Block,
      b.list = s.din.drop (128 * (s.din.length / 128)) ++
        (if s.din.length < 128 then s.blk
          else blockOf s.din s.key r .decrypt (s.din.length / 128 - 1)).list.drop (s.din.length % 128) ∧
      exec (.sdec (BitVec.ofNat 4 r.val)) s = .next { s with
        blkCnt := BitVec.ofNat 26 (blockCount s.len.toNat),
        blkIdx := BitVec.ofNat 26 (s.din.length / 128),
        blk := b,
        sk := if s.din.length < 128 then s.sk else rotl8 s.key 1,
        din := [],
        dout := s.dout ++ decryptedBlocks s.din s.key r (s.din.length / 128),
        doutRoom := s.roomAfter (128 * (s.din.length / 128)),
        busy := true,
        cur := some ⟨.sdec (BitVec.ofNat 4 r.val), .reading, s.din.length % 128, 0⟩ }

/-- R60, R63, for SDEC: whose host accepts only `k` bytes of output it waits in the writing phase of block `k div 128`,
as long as that block has more than `k mod 128` bytes to push (128 of them, or the strip length of the last block): that
block's input is consumed, and nothing of the next block's. `doutRoom`, the step and the micro-state: log entries 1, 3,
9. -/
def Obligations.SdecHoldsInputWhileOutputWaits : Prop :=
  ∀ (r : RoundCount) (s : State) (k n : Nat), s.doutRoom = some k → 128 * (k / 128 + 1) ≤ s.len.toNat →
    128 * (k / 128 + 1) ≤ s.din.length →
    n = (if k / 128 + 1 = blockCount s.len.toNat
      then stripLen (blockOf (s.din.take s.len.toNat) s.key r .decrypt (k / 128)) else 128) →
    k % 128 < n →
    exec (.sdec (BitVec.ofNat 4 r.val)) s = .next { s with
      blkCnt := BitVec.ofNat 26 (blockCount s.len.toNat),
      blkIdx := BitVec.ofNat 26 (k / 128),
      blk := blockOf (s.din.take s.len.toNat) s.key r .decrypt (k / 128),
      sk := rotl8 s.key 1,
      din := s.din.drop (128 * (k / 128 + 1)),
      dout := s.dout ++ (decryptedBlocks (s.din.take s.len.toNat) s.key r (k / 128 + 1)).take k,
      doutRoom := some 0,
      busy := true,
      cur := some ⟨.sdec (BitVec.ofNat 4 r.val), .writing, k % 128, n⟩ }

/-- R59 (b), R63: a host that supplies the rest of the input and accepts all output later gets, at the next step, the
state it would have got by doing so before the command. The step is the model's (log entries 1, 3). -/
def Obligations.SlowHostGetsTheSameResult : Prop :=
  ∀ (i : Instr) (s t : State) (bs : List Byte), s.rst = false → s.halt = false →
    exec i s = .next t → t.busy = true →
    step { t with din := t.din ++ bs, doutRoom := none } = exec i { s with din := s.din ++ bs, doutRoom := none }

/-- R63: a command in progress makes no step exactly while the port it waits on is blocked: "no register changes, `ERR`
stays 0, and the wait ends the moment the host makes the transfer". That such a step is a stutter is the model's choice
(log entries 2, 11). -/
def Obligations.WaitLastsWhilePortIsBlocked : Prop :=
  ∀ s : State, Inv s → s.rst = false → s.busy = true → (step s = .next s ↔ blocked s = true)

/-- R205, R259: every command terminates if the host makes every transfer it waits for: with the input offered and the
output accepted, it is over (completed or faulted) in one step, whether just accepted or in progress. That one step does all
of it is the model's choice (log entry 1). -/
def Obligations.CommandsTerminateWhenServed : Prop :=
  (∀ (i : Instr) (s : State), s.doutRoom = none → 128 ≤ s.din.length → s.len.toNat ≤ s.din.length →
    ∃ t, exec i s = .next t ∧ t.busy = false) ∧
  ∀ s : State, Inv s → s.rst = false → s.busy = true →
    s.doutRoom = none → 128 ≤ s.din.length → s.len.toNat ≤ s.din.length →
    ∃ t, step s = .next t ∧ t.busy = false

/-! ### Access matrix, ports and host (10_state.md, 20_memory.md) -/

/-- A row of the access matrix (R36): what the command may write, pop and push. -/
structure AccessRow where
  blk : Bool := false
  sk : Bool := false
  len : Bool := false
  counters : Bool := false
  din : Bool := false
  dout : Bool := false
  mayFault : Bool := false

/-- The matrix of R36; `mayFault` for the commands of R220's rows 2 and 3. -/
def accessRow : Instr → AccessRow
  | .nop => {}
  | .kgen _ => { sk := true }
  | .round => { blk := true }
  | .swap => { blk := true }
  | .benc _ => { blk := true, sk := true, mayFault := true }
  | .bdec _ => { blk := true, sk := true, mayFault := true }
  | .ldblk => { blk := true, din := true }
  | .stblk => { dout := true }
  | .stsk => { dout := true }
  | .lenl _ => { len := true }
  | .lenh _ => { len := true }
  | .senc _ => { blk := true, sk := true, counters := true, din := true, dout := true, mayFault := true }
  | .sdec _ => { blk := true, sk := true, counters := true, din := true, dout := true, mayFault := true }

/-- The frame of all thirteen commands, whether they complete, wait or fault: what R36 does not let a command write is
unchanged; DIN only loses bytes at its head, DOUT only gains bytes at its end; CMD, `rst` and the index of accepted
words are the acceptance's and the host's alone (log entries 5, 12). -/
def Obligations.CommandsKeepToTheAccessMatrix : Prop :=
  ∀ (i : Instr) (s t : State), exec i s = .next t →
    ((accessRow i).blk = false → t.blk = s.blk) ∧
    ((accessRow i).sk = false → t.sk = s.sk) ∧
    ((accessRow i).len = false → t.len = s.len) ∧
    ((accessRow i).counters = false → t.blkCnt = s.blkCnt ∧ t.blkIdx = s.blkIdx) ∧
    ((accessRow i).din = false → t.din = s.din) ∧
    ((accessRow i).dout = false → t.dout = s.dout ∧ t.doutRoom = s.doutRoom) ∧
    ((accessRow i).mayFault = false → t.err = s.err ∧ t.errInfo = s.errInfo ∧ t.halt = s.halt) ∧
    t.din <:+ s.din ∧ s.dout <+: t.dout ∧
    t.cmd = s.cmd ∧ t.rst = s.rst ∧ t.accepted = s.accepted ∧ t.key = s.key

/-- R51: a step takes exactly the head of CMD when the engine is ready and a word is there, advancing the index by 1
(R31), and nothing of CMD otherwise. The index is one the model chose to keep (log entry 5). -/
def Obligations.WordsAcceptedInOrderWhenReady : Prop :=
  ∀ s t : State, step s = .next t →
    (cmdReady s = true → ∀ w ws, s.cmd = w :: ws → t.cmd = ws ∧ t.accepted = s.accepted + 1) ∧
    (cmdReady s = false ∨ s.cmd = [] → t.cmd = s.cmd ∧ t.accepted = s.accepted)

/-- R57: "an emitted byte is never recalled", by no step and no host move; a consumed byte does not come back. -/
def Obligations.TransfersAreFinal : Prop :=
  (∀ s t : State, step s = .next t → s.dout <+: t.dout ∧ t.din <:+ s.din) ∧
  ∀ (m : HostMove) (s : State), (hostMove m s).dout = s.dout

/-- R64: "The host cannot write any register except through commands", and a host move keeps the invariant. The list of
moves is the model's form of R64 (log entry 14). -/
def Obligations.HostMovesChangeNoRegister : Prop :=
  ∀ (m : HostMove) (s : State),
    hostMove m s = { s with
      cmd := (hostMove m s).cmd, din := (hostMove m s).din, doutRoom := (hostMove m s).doutRoom,
      rst := (hostMove m s).rst } ∧
    (Inv s → Inv (hostMove m s))

/-- R34: the wires show the registers while `busy = 0`; while a command is in progress only `busy` and `halt` are
fixed, and "every other status wire may show any value". The relation is the model's form (log entry 10). -/
def Obligations.StatusWiresShowRegistersWhenNotBusy : Prop :=
  ∀ (s : State) (w : StatusWires),
    (s.busy = false → (mayShow s w = true ↔
      w = ⟨s.busy, s.halt, s.err, s.errInfo, s.sk, s.len, s.blkCnt, s.blkIdx, s.key⟩)) ∧
    (s.busy = true → (mayShow s w = true ↔ w.busy = true ∧ w.halt = false))

/-! ### Faults, reset and the step (60_exceptions.md, 70_reset_and_hazards.md) -/

/-- When the word at the head of CMD decodes to the command `i`, a step of an idle engine out of reset is `exec i` in
the state where the word has been accepted: it has left CMD and BUSY is 1 (R51, R85), and the index of R31, which
the model keeps, is one further (log entry 5). That acceptance and the whole execution are one step is the model's choice
(log entry 1). -/
def Obligations.StepRunsTheDecodedCommand : Prop :=
  ∀ (s : State) (w : Word) (ws : List Word) (i : Instr), s.rst = false → s.idle = true → s.cmd = w :: ws →
    decode w = .ok i → step s = exec i { s with cmd := ws, busy := true, accepted := s.accepted + 1 }

/-- R228: what `raise F(info)` does, for each of the three faults; and a halted engine drives no port ready or valid
and changes nothing until reset (its step is a stutter: log entry 2). -/
def Obligations.FaultEntryHaltsUntilReset : Prop :=
  (∀ (f : FaultKind) (info : BitVec 32) (s : State),
    raise f info s = { s with
      err := match f with
        | .illegalCmd => 1
        | .roundsRange => 2
        | .format => 3,
      errInfo := info, halt := true, busy := false, cur := none }) ∧
  ∀ s : State, s.halt = true →
    cmdReady s = false ∧ dinReady s = false ∧ doutValid s = false ∧ (s.rst = false → step s = .next s)

/-- R220: a step that halts the engine is the acceptance of a word that spells no command (1), the acceptance of a
block or stream command with a round count outside 1..8 (2), or SDEC with `LEN` no multiple of 128, just accepted or
in progress (3); ERR and ERRINFO are the table's, and "no other condition faults". -/
def Obligations.FaultsOnlyWhereTheTableSays : Prop :=
  ∀ s t : State, Inv s → s.rst = false → s.halt = false → step s = .next t → t.halt = true →
    (t.err = 1 ∧ s.busy = false ∧ ∃ w ws e, s.cmd = w :: ws ∧ decode w = .error e ∧ t.errInfo = w) ∨
    (t.err = 2 ∧ s.busy = false ∧ ∃ w ws i, s.cmd = w :: ws ∧ decode w = .ok i ∧ i.wellFormed = false ∧
      t.errInfo = w) ∨
    (t.err = 3 ∧ s.len.toNat % 128 ≠ 0 ∧ t.errInfo = BitVec.ofNat 32 (s.len.toNat % 128) ∧
      ∃ r, (s.busy = false ∧ ∃ ws, s.cmd = encode (.sdec r) :: ws) ∨
        (s.busy = true ∧ ∃ p, s.cur = some p ∧ p.command = .sdec r))

/-- R250 to R252: at an edge with `rst = 1` every register takes its reset value, whatever the engine was doing; KEY
and the streams are not touched; no port is ready or valid. `rst` as a level sampled between steps: log entry 4. -/
def Obligations.ResetEdgeZeroesEngine : Prop :=
  ∀ s : State, s.rst = true →
    step s = .next { s with
      blk := Bytes.replicate 128 0x00, sk := 0, len := 0, blkCnt := 0, blkIdx := 0, err := 0, errInfo := 0,
      halt := false, busy := false, cur := none } ∧
    cmdReady s = false ∧ dinReady s = false ∧ doutValid s = false

/-- R35: the reset value of every register, in every configuration (00_scope.md R5; log entry 7); this hardware's KEY is
0x96. -/
def Obligations.ResetStateValues : Prop :=
  (∀ c : Config, (∀ i : Fin 128, (State.resetFor c).blk.get i = 0x00) ∧ (State.resetFor c).key = c.baseKey ∧
    (State.resetFor c).sk = 0x00 ∧ (State.resetFor c).len = 0 ∧ (State.resetFor c).blkCnt = 0 ∧
    (State.resetFor c).blkIdx = 0 ∧ (State.resetFor c).err = 0 ∧ (State.resetFor c).errInfo = 0 ∧
    (State.resetFor c).halt = false ∧ (State.resetFor c).busy = false ∧ (State.resetFor c).cur = none ∧
    (State.resetFor c).idle = true) ∧
  State.reset = State.resetFor Config.fge ∧ State.reset.key = 0x96

/-- The invariant holds right after reset, in every configuration. -/
def Obligations.InvariantHoldsAtReset : Prop := Inv State.reset ∧ ∀ c : Config, Inv (State.resetFor c)

/-- Every step keeps the invariant, from every state that has it: BUSY and HALT, ERR and HALT, BLKIDX and BLKCNT, the
micro-state of a command in progress, and ERRINFO agree as the rules of `Inv` say (R26 to R32). The
form of the micro-state is the model's (log entry 9). -/
def Obligations.StepKeepsInvariant : Prop :=
  ∀ s t : State, Inv s → step s = .next t → Inv t

/-- No step stops the machine: every state has a next one (R63, R85, R228, R233; that waiting, idle and halted states
stutter is the model's choice, log entry 2). -/
def Obligations.EveryStepAnswersANextState : Prop := ∀ s : State, ∃ t, step s = .next t
end

