-- ==== Sys2Proof/Laws/State.lean ====
section
/-! SUPPORT. One lemma per field per update of the state. -/

namespace Sys2Proof.Machine

/-! ### `State.resetFor` -/

@[simp] theorem resetFor_blk (c : Config) : (State.resetFor c).blk = Bytes.replicate 128 0x00 := rfl
@[simp] theorem resetFor_key (c : Config) : (State.resetFor c).key = c.baseKey := rfl
@[simp] theorem resetFor_sk (c : Config) : (State.resetFor c).sk = 0 := rfl
@[simp] theorem resetFor_len (c : Config) : (State.resetFor c).len = 0 := rfl
@[simp] theorem resetFor_blkCnt (c : Config) : (State.resetFor c).blkCnt = 0 := rfl
@[simp] theorem resetFor_blkIdx (c : Config) : (State.resetFor c).blkIdx = 0 := rfl
@[simp] theorem resetFor_err (c : Config) : (State.resetFor c).err = 0 := rfl
@[simp] theorem resetFor_errInfo (c : Config) : (State.resetFor c).errInfo = 0 := rfl
@[simp] theorem resetFor_halt (c : Config) : (State.resetFor c).halt = false := rfl
@[simp] theorem resetFor_busy (c : Config) : (State.resetFor c).busy = false := rfl
@[simp] theorem resetFor_cur (c : Config) : (State.resetFor c).cur = none := rfl
@[simp] theorem resetFor_cmd (c : Config) : (State.resetFor c).cmd = [] := rfl
@[simp] theorem resetFor_din (c : Config) : (State.resetFor c).din = [] := rfl
@[simp] theorem resetFor_dout (c : Config) : (State.resetFor c).dout = [] := rfl
@[simp] theorem resetFor_doutRoom (c : Config) : (State.resetFor c).doutRoom = none := rfl
@[simp] theorem resetFor_rst (c : Config) : (State.resetFor c).rst = false := rfl
@[simp] theorem resetFor_accepted (c : Config) : (State.resetFor c).accepted = 0 := rfl

/-! ### `accept` -/

@[simp] theorem accept_blk (ws : List Word) (s : State) : (accept ws s).blk = s.blk := rfl
@[simp] theorem accept_key (ws : List Word) (s : State) : (accept ws s).key = s.key := rfl
@[simp] theorem accept_sk (ws : List Word) (s : State) : (accept ws s).sk = s.sk := rfl
@[simp] theorem accept_len (ws : List Word) (s : State) : (accept ws s).len = s.len := rfl
@[simp] theorem accept_blkCnt (ws : List Word) (s : State) : (accept ws s).blkCnt = s.blkCnt := rfl
@[simp] theorem accept_blkIdx (ws : List Word) (s : State) : (accept ws s).blkIdx = s.blkIdx := rfl
@[simp] theorem accept_err (ws : List Word) (s : State) : (accept ws s).err = s.err := rfl
@[simp] theorem accept_errInfo (ws : List Word) (s : State) : (accept ws s).errInfo = s.errInfo := rfl
@[simp] theorem accept_halt (ws : List Word) (s : State) : (accept ws s).halt = s.halt := rfl
@[simp] theorem accept_busy (ws : List Word) (s : State) : (accept ws s).busy = true := rfl
@[simp] theorem accept_cur (ws : List Word) (s : State) : (accept ws s).cur = s.cur := rfl
@[simp] theorem accept_cmd (ws : List Word) (s : State) : (accept ws s).cmd = ws := rfl
@[simp] theorem accept_din (ws : List Word) (s : State) : (accept ws s).din = s.din := rfl
@[simp] theorem accept_dout (ws : List Word) (s : State) : (accept ws s).dout = s.dout := rfl
@[simp] theorem accept_doutRoom (ws : List Word) (s : State) : (accept ws s).doutRoom = s.doutRoom := rfl
@[simp] theorem accept_rst (ws : List Word) (s : State) : (accept ws s).rst = s.rst := rfl
@[simp] theorem accept_accepted (ws : List Word) (s : State) : (accept ws s).accepted = s.accepted + 1 := rfl

/-! ### `complete` -/

@[simp] theorem complete_blk (s : State) : (complete s).blk = s.blk := rfl
@[simp] theorem complete_key (s : State) : (complete s).key = s.key := rfl
@[simp] theorem complete_sk (s : State) : (complete s).sk = s.sk := rfl
@[simp] theorem complete_len (s : State) : (complete s).len = s.len := rfl
@[simp] theorem complete_blkCnt (s : State) : (complete s).blkCnt = s.blkCnt := rfl
@[simp] theorem complete_blkIdx (s : State) : (complete s).blkIdx = s.blkIdx := rfl
@[simp] theorem complete_err (s : State) : (complete s).err = s.err := rfl
@[simp] theorem complete_errInfo (s : State) : (complete s).errInfo = s.errInfo := rfl
@[simp] theorem complete_halt (s : State) : (complete s).halt = s.halt := rfl
@[simp] theorem complete_busy (s : State) : (complete s).busy = false := rfl
@[simp] theorem complete_cur (s : State) : (complete s).cur = none := rfl
@[simp] theorem complete_cmd (s : State) : (complete s).cmd = s.cmd := rfl
@[simp] theorem complete_din (s : State) : (complete s).din = s.din := rfl
@[simp] theorem complete_dout (s : State) : (complete s).dout = s.dout := rfl
@[simp] theorem complete_doutRoom (s : State) : (complete s).doutRoom = s.doutRoom := rfl
@[simp] theorem complete_rst (s : State) : (complete s).rst = s.rst := rfl
@[simp] theorem complete_accepted (s : State) : (complete s).accepted = s.accepted := rfl

/-! ### `waitAt` -/

@[simp] theorem waitAt_blk (p : Progress) (s : State) : (waitAt p s).blk = s.blk := rfl
@[simp] theorem waitAt_key (p : Progress) (s : State) : (waitAt p s).key = s.key := rfl
@[simp] theorem waitAt_sk (p : Progress) (s : State) : (waitAt p s).sk = s.sk := rfl
@[simp] theorem waitAt_len (p : Progress) (s : State) : (waitAt p s).len = s.len := rfl
@[simp] theorem waitAt_blkCnt (p : Progress) (s : State) : (waitAt p s).blkCnt = s.blkCnt := rfl
@[simp] theorem waitAt_blkIdx (p : Progress) (s : State) : (waitAt p s).blkIdx = s.blkIdx := rfl
@[simp] theorem waitAt_err (p : Progress) (s : State) : (waitAt p s).err = s.err := rfl
@[simp] theorem waitAt_errInfo (p : Progress) (s : State) : (waitAt p s).errInfo = s.errInfo := rfl
@[simp] theorem waitAt_halt (p : Progress) (s : State) : (waitAt p s).halt = s.halt := rfl
@[simp] theorem waitAt_busy (p : Progress) (s : State) : (waitAt p s).busy = true := rfl
@[simp] theorem waitAt_cur (p : Progress) (s : State) : (waitAt p s).cur = some p := rfl
@[simp] theorem waitAt_cmd (p : Progress) (s : State) : (waitAt p s).cmd = s.cmd := rfl
@[simp] theorem waitAt_din (p : Progress) (s : State) : (waitAt p s).din = s.din := rfl
@[simp] theorem waitAt_dout (p : Progress) (s : State) : (waitAt p s).dout = s.dout := rfl
@[simp] theorem waitAt_doutRoom (p : Progress) (s : State) : (waitAt p s).doutRoom = s.doutRoom := rfl
@[simp] theorem waitAt_rst (p : Progress) (s : State) : (waitAt p s).rst = s.rst := rfl
@[simp] theorem waitAt_accepted (p : Progress) (s : State) : (waitAt p s).accepted = s.accepted := rfl

/-! ### `raise` -/

@[simp] theorem raise_blk (f : FaultKind) (info : BitVec 32) (s : State) : (raise f info s).blk = s.blk := rfl
@[simp] theorem raise_key (f : FaultKind) (info : BitVec 32) (s : State) : (raise f info s).key = s.key := rfl
@[simp] theorem raise_sk (f : FaultKind) (info : BitVec 32) (s : State) : (raise f info s).sk = s.sk := rfl
@[simp] theorem raise_len (f : FaultKind) (info : BitVec 32) (s : State) : (raise f info s).len = s.len := rfl
@[simp] theorem raise_blkCnt (f : FaultKind) (info : BitVec 32) (s : State) :
    (raise f info s).blkCnt = s.blkCnt := rfl
@[simp] theorem raise_blkIdx (f : FaultKind) (info : BitVec 32) (s : State) :
    (raise f info s).blkIdx = s.blkIdx := rfl
@[simp] theorem raise_err (f : FaultKind) (info : BitVec 32) (s : State) : (raise f info s).err = f.code := rfl
@[simp] theorem raise_errInfo (f : FaultKind) (info : BitVec 32) (s : State) :
    (raise f info s).errInfo = info := rfl
@[simp] theorem raise_halt (f : FaultKind) (info : BitVec 32) (s : State) : (raise f info s).halt = true := rfl
@[simp] theorem raise_busy (f : FaultKind) (info : BitVec 32) (s : State) : (raise f info s).busy = false := rfl
@[simp] theorem raise_cur (f : FaultKind) (info : BitVec 32) (s : State) : (raise f info s).cur = none := rfl
@[simp] theorem raise_cmd (f : FaultKind) (info : BitVec 32) (s : State) : (raise f info s).cmd = s.cmd := rfl
@[simp] theorem raise_din (f : FaultKind) (info : BitVec 32) (s : State) : (raise f info s).din = s.din := rfl
@[simp] theorem raise_dout (f : FaultKind) (info : BitVec 32) (s : State) : (raise f info s).dout = s.dout := rfl
@[simp] theorem raise_doutRoom (f : FaultKind) (info : BitVec 32) (s : State) :
    (raise f info s).doutRoom = s.doutRoom := rfl
@[simp] theorem raise_rst (f : FaultKind) (info : BitVec 32) (s : State) : (raise f info s).rst = s.rst := rfl
@[simp] theorem raise_accepted (f : FaultKind) (info : BitVec 32) (s : State) :
    (raise f info s).accepted = s.accepted := rfl

/-! ### `resetEngine` -/

@[simp] theorem resetEngine_blk (s : State) : (resetEngine s).blk = Bytes.replicate 128 0x00 := rfl
@[simp] theorem resetEngine_key (s : State) : (resetEngine s).key = s.key := rfl
@[simp] theorem resetEngine_sk (s : State) : (resetEngine s).sk = 0 := rfl
@[simp] theorem resetEngine_len (s : State) : (resetEngine s).len = 0 := rfl
@[simp] theorem resetEngine_blkCnt (s : State) : (resetEngine s).blkCnt = 0 := rfl
@[simp] theorem resetEngine_blkIdx (s : State) : (resetEngine s).blkIdx = 0 := rfl
@[simp] theorem resetEngine_err (s : State) : (resetEngine s).err = 0 := rfl
@[simp] theorem resetEngine_errInfo (s : State) : (resetEngine s).errInfo = 0 := rfl
@[simp] theorem resetEngine_halt (s : State) : (resetEngine s).halt = false := rfl
@[simp] theorem resetEngine_busy (s : State) : (resetEngine s).busy = false := rfl
@[simp] theorem resetEngine_cur (s : State) : (resetEngine s).cur = none := rfl
@[simp] theorem resetEngine_cmd (s : State) : (resetEngine s).cmd = s.cmd := rfl
@[simp] theorem resetEngine_din (s : State) : (resetEngine s).din = s.din := rfl
@[simp] theorem resetEngine_dout (s : State) : (resetEngine s).dout = s.dout := rfl
@[simp] theorem resetEngine_doutRoom (s : State) : (resetEngine s).doutRoom = s.doutRoom := rfl
@[simp] theorem resetEngine_rst (s : State) : (resetEngine s).rst = s.rst := rfl
@[simp] theorem resetEngine_accepted (s : State) : (resetEngine s).accepted = s.accepted := rfl

/-! ### `setSubkey` -/

@[simp] theorem setSubkey_blk (v : Byte) (s : State) : (setSubkey v s).blk = s.blk := rfl
@[simp] theorem setSubkey_key (v : Byte) (s : State) : (setSubkey v s).key = s.key := rfl
@[simp] theorem setSubkey_sk (v : Byte) (s : State) : (setSubkey v s).sk = v := rfl
@[simp] theorem setSubkey_len (v : Byte) (s : State) : (setSubkey v s).len = s.len := rfl
@[simp] theorem setSubkey_blkCnt (v : Byte) (s : State) : (setSubkey v s).blkCnt = s.blkCnt := rfl
@[simp] theorem setSubkey_blkIdx (v : Byte) (s : State) : (setSubkey v s).blkIdx = s.blkIdx := rfl
@[simp] theorem setSubkey_err (v : Byte) (s : State) : (setSubkey v s).err = s.err := rfl
@[simp] theorem setSubkey_errInfo (v : Byte) (s : State) : (setSubkey v s).errInfo = s.errInfo := rfl
@[simp] theorem setSubkey_halt (v : Byte) (s : State) : (setSubkey v s).halt = s.halt := rfl
@[simp] theorem setSubkey_busy (v : Byte) (s : State) : (setSubkey v s).busy = s.busy := rfl
@[simp] theorem setSubkey_cur (v : Byte) (s : State) : (setSubkey v s).cur = s.cur := rfl
@[simp] theorem setSubkey_cmd (v : Byte) (s : State) : (setSubkey v s).cmd = s.cmd := rfl
@[simp] theorem setSubkey_din (v : Byte) (s : State) : (setSubkey v s).din = s.din := rfl
@[simp] theorem setSubkey_dout (v : Byte) (s : State) : (setSubkey v s).dout = s.dout := rfl
@[simp] theorem setSubkey_doutRoom (v : Byte) (s : State) : (setSubkey v s).doutRoom = s.doutRoom := rfl
@[simp] theorem setSubkey_rst (v : Byte) (s : State) : (setSubkey v s).rst = s.rst := rfl
@[simp] theorem setSubkey_accepted (v : Byte) (s : State) : (setSubkey v s).accepted = s.accepted := rfl

/-! ### `applyRound` -/

@[simp] theorem applyRound_blk (s : State) : (applyRound s).blk = roundBlock s.blk s.sk := rfl
@[simp] theorem applyRound_key (s : State) : (applyRound s).key = s.key := rfl
@[simp] theorem applyRound_sk (s : State) : (applyRound s).sk = s.sk := rfl
@[simp] theorem applyRound_len (s : State) : (applyRound s).len = s.len := rfl
@[simp] theorem applyRound_blkCnt (s : State) : (applyRound s).blkCnt = s.blkCnt := rfl
@[simp] theorem applyRound_blkIdx (s : State) : (applyRound s).blkIdx = s.blkIdx := rfl
@[simp] theorem applyRound_err (s : State) : (applyRound s).err = s.err := rfl
@[simp] theorem applyRound_errInfo (s : State) : (applyRound s).errInfo = s.errInfo := rfl
@[simp] theorem applyRound_halt (s : State) : (applyRound s).halt = s.halt := rfl
@[simp] theorem applyRound_busy (s : State) : (applyRound s).busy = s.busy := rfl
@[simp] theorem applyRound_cur (s : State) : (applyRound s).cur = s.cur := rfl
@[simp] theorem applyRound_cmd (s : State) : (applyRound s).cmd = s.cmd := rfl
@[simp] theorem applyRound_din (s : State) : (applyRound s).din = s.din := rfl
@[simp] theorem applyRound_dout (s : State) : (applyRound s).dout = s.dout := rfl
@[simp] theorem applyRound_doutRoom (s : State) : (applyRound s).doutRoom = s.doutRoom := rfl
@[simp] theorem applyRound_rst (s : State) : (applyRound s).rst = s.rst := rfl
@[simp] theorem applyRound_accepted (s : State) : (applyRound s).accepted = s.accepted := rfl

/-! ### `applySwap` -/

@[simp] theorem applySwap_blk (s : State) : (applySwap s).blk = swapBlock s.blk := rfl
@[simp] theorem applySwap_key (s : State) : (applySwap s).key = s.key := rfl
@[simp] theorem applySwap_sk (s : State) : (applySwap s).sk = s.sk := rfl
@[simp] theorem applySwap_len (s : State) : (applySwap s).len = s.len := rfl
@[simp] theorem applySwap_blkCnt (s : State) : (applySwap s).blkCnt = s.blkCnt := rfl
@[simp] theorem applySwap_blkIdx (s : State) : (applySwap s).blkIdx = s.blkIdx := rfl
@[simp] theorem applySwap_err (s : State) : (applySwap s).err = s.err := rfl
@[simp] theorem applySwap_errInfo (s : State) : (applySwap s).errInfo = s.errInfo := rfl
@[simp] theorem applySwap_halt (s : State) : (applySwap s).halt = s.halt := rfl
@[simp] theorem applySwap_busy (s : State) : (applySwap s).busy = s.busy := rfl
@[simp] theorem applySwap_cur (s : State) : (applySwap s).cur = s.cur := rfl
@[simp] theorem applySwap_cmd (s : State) : (applySwap s).cmd = s.cmd := rfl
@[simp] theorem applySwap_din (s : State) : (applySwap s).din = s.din := rfl
@[simp] theorem applySwap_dout (s : State) : (applySwap s).dout = s.dout := rfl
@[simp] theorem applySwap_doutRoom (s : State) : (applySwap s).doutRoom = s.doutRoom := rfl
@[simp] theorem applySwap_rst (s : State) : (applySwap s).rst = s.rst := rfl
@[simp] theorem applySwap_accepted (s : State) : (applySwap s).accepted = s.accepted := rfl

/-! ### `startStream` -/

@[simp] theorem startStream_blk (s : State) : (startStream s).blk = s.blk := rfl
@[simp] theorem startStream_key (s : State) : (startStream s).key = s.key := rfl
@[simp] theorem startStream_sk (s : State) : (startStream s).sk = s.sk := rfl
@[simp] theorem startStream_len (s : State) : (startStream s).len = s.len := rfl
@[simp] theorem startStream_blkCnt (s : State) :
    (startStream s).blkCnt = BitVec.ofNat 26 (blockCount s.len.toNat) := rfl
@[simp] theorem startStream_blkIdx (s : State) : (startStream s).blkIdx = 0 := rfl
@[simp] theorem startStream_err (s : State) : (startStream s).err = s.err := rfl
@[simp] theorem startStream_errInfo (s : State) : (startStream s).errInfo = s.errInfo := rfl
@[simp] theorem startStream_halt (s : State) : (startStream s).halt = s.halt := rfl
@[simp] theorem startStream_busy (s : State) : (startStream s).busy = s.busy := rfl
@[simp] theorem startStream_cur (s : State) : (startStream s).cur = s.cur := rfl
@[simp] theorem startStream_cmd (s : State) : (startStream s).cmd = s.cmd := rfl
@[simp] theorem startStream_din (s : State) : (startStream s).din = s.din := rfl
@[simp] theorem startStream_dout (s : State) : (startStream s).dout = s.dout := rfl
@[simp] theorem startStream_doutRoom (s : State) : (startStream s).doutRoom = s.doutRoom := rfl
@[simp] theorem startStream_rst (s : State) : (startStream s).rst = s.rst := rfl
@[simp] theorem startStream_accepted (s : State) : (startStream s).accepted = s.accepted := rfl

/-! ### `offer` -/

@[simp] theorem offer_blk (bs : List Byte) (s : State) : (offer bs s).blk = s.blk := rfl
@[simp] theorem offer_key (bs : List Byte) (s : State) : (offer bs s).key = s.key := rfl
@[simp] theorem offer_sk (bs : List Byte) (s : State) : (offer bs s).sk = s.sk := rfl
@[simp] theorem offer_len (bs : List Byte) (s : State) : (offer bs s).len = s.len := rfl
@[simp] theorem offer_blkCnt (bs : List Byte) (s : State) : (offer bs s).blkCnt = s.blkCnt := rfl
@[simp] theorem offer_blkIdx (bs : List Byte) (s : State) : (offer bs s).blkIdx = s.blkIdx := rfl
@[simp] theorem offer_err (bs : List Byte) (s : State) : (offer bs s).err = s.err := rfl
@[simp] theorem offer_errInfo (bs : List Byte) (s : State) : (offer bs s).errInfo = s.errInfo := rfl
@[simp] theorem offer_halt (bs : List Byte) (s : State) : (offer bs s).halt = s.halt := rfl
@[simp] theorem offer_busy (bs : List Byte) (s : State) : (offer bs s).busy = s.busy := rfl
@[simp] theorem offer_cur (bs : List Byte) (s : State) : (offer bs s).cur = s.cur := rfl
@[simp] theorem offer_cmd (bs : List Byte) (s : State) : (offer bs s).cmd = s.cmd := rfl
@[simp] theorem offer_din (bs : List Byte) (s : State) : (offer bs s).din = s.din ++ bs := rfl
@[simp] theorem offer_dout (bs : List Byte) (s : State) : (offer bs s).dout = s.dout := rfl
@[simp] theorem offer_doutRoom (bs : List Byte) (s : State) : (offer bs s).doutRoom = s.doutRoom := rfl
@[simp] theorem offer_rst (bs : List Byte) (s : State) : (offer bs s).rst = s.rst := rfl
@[simp] theorem offer_accepted (bs : List Byte) (s : State) : (offer bs s).accepted = s.accepted := rfl

end Sys2Proof.Machine
end

