-- ==== Sys2Proof/Laws/Ops.lean ====
section
/-! SUPPORT. What each shared operation can do: block cells and views, the two port loops, sequencing, the round check. -/

namespace Sys2Proof

theorem Bytes.get_eq_getElem {n : Nat} (b : Bytes n) (i : Fin n) (h : i.val < b.list.length) :
    b.get i = b.list[i.val] := rfl

/-- Two byte sequences that agree at every index are equal. -/
theorem Bytes.ext_get {n : Nat} {a b : Bytes n} (h : ∀ i, a.get i = b.get i) : a = b := by
  apply Bytes.ext
  apply List.ext_getElem (by rw [a.size, b.size])
  intro i h1 _
  exact h ⟨i, a.size ▸ h1⟩

@[simp] theorem Bytes.list_replicate (n : Nat) (v : Byte) : (Bytes.replicate n v).list = List.replicate n v := rfl

@[simp] theorem Bytes.get_replicate {n : Nat} (v : Byte) (i : Fin n) : (Bytes.replicate n v).get i = v := by
  simp [Bytes.get]

/-- All 128 bytes of a block. -/
@[simp] theorem Block.take_all (b : Block) : b.list.take 128 = b.list := by
  rw [List.take_of_length_le]; rw [b.size]

namespace Machine

/-! ### Block cells and views -/

@[simp] theorem list_setCell (b : Block) (i : Nat) (v : Byte) : (setCell b i v).list = b.list.set i v := rfl
@[simp] theorem list_left (b : Block) : (left b).list = b.list.take 64 := rfl
@[simp] theorem list_right (b : Block) : (right b).list = b.list.drop 64 := rfl
@[simp] theorem list_join (l r : Half) : (join l r).list = l.list ++ r.list := rfl
@[simp] theorem list_zeroFrom (a : Nat) (b : Block) :
    (zeroFrom a b).list = b.list.take a ++ List.replicate (128 - a) 0x00 := rfl

@[simp] theorem get_left (b : Block) (j : Fin 64) : (left b).get j = b.get (cellL j) := by
  simp [Bytes.get, cellL]

@[simp] theorem get_right (b : Block) (j : Fin 64) : (right b).get j = b.get (cellR j) := by
  simp [Bytes.get, cellR]

@[simp] theorem get_join_cellL (l r : Half) (j : Fin 64) : (join l r).get (cellL j) = l.get j := by
  simp [Bytes.get, cellL, l.size]

@[simp] theorem get_join_cellR (l r : Half) (j : Fin 64) : (join l r).get (cellR j) = r.get j := by
  simp [Bytes.get, cellR, l.size]

@[simp] theorem left_join (l r : Half) : left (join l r) = l := by
  apply Bytes.ext; simp [← l.size]

@[simp] theorem right_join (l r : Half) : right (join l r) = r := by
  apply Bytes.ext; simp [← l.size]

@[simp] theorem join_left_right (b : Block) : join (left b) (right b) = b := by
  apply Bytes.ext; simp

/-- Every cell of BLK is a cell of L or of R (10_state.md R22). -/
theorem cell_cases (i : Fin 128) : (∃ j, i = cellL j) ∨ ∃ j, i = cellR j := by
  rcases Nat.lt_or_ge i.val 64 with h | h
  · exact .inl ⟨⟨i.val, h⟩, rfl⟩
  · refine .inr ⟨⟨i.val - 64, by omega⟩, ?_⟩
    ext; simp [cellR]; omega

/-- Two blocks that agree on L and on R are equal. -/
theorem block_ext {a b : Block} (hl : ∀ j, a.get (cellL j) = b.get (cellL j))
    (hr : ∀ j, a.get (cellR j) = b.get (cellR j)) : a = b := by
  apply Bytes.ext_get
  intro i
  rcases cell_cases i with ⟨j, rfl⟩ | ⟨j, rfl⟩
  · exact hl j
  · exact hr j

/-- `b` with the cells from `j` on holding the given bytes. -/
def setCells (b : Block) : Nat → List Byte → Block
  | _, [] => b
  | j, v :: vs => setCells (setCell b j v) (j + 1) vs

theorem list_setCells (vs : List Byte) (b : Block) (j : Nat) (h : j + vs.length ≤ 128) :
    (setCells b j vs).list = b.list.take j ++ vs ++ b.list.drop (j + vs.length) := by
  induction vs generalizing b j with
  | nil => simp [setCells]
  | cons v vs ih =>
    simp only [List.length_cons] at h
    have hj : j < b.list.length := by rw [b.size]; omega
    rw [setCells, ih _ _ (by omega), list_setCell, List.set_eq_take_append_cons_drop, if_pos hj]
    have hl : (List.take j b.list).length = j := by simp; omega
    rw [List.take_append, List.drop_append, hl]
    have hs : j + 1 + vs.length - j = vs.length + 1 := by omega
    have ht : List.take (j + 1) (List.take j b.list) = List.take j b.list := by
      rw [List.take_take]; congr 1; omega
    have hd : List.drop (j + 1 + vs.length) (List.take j b.list) = [] := by
      apply List.drop_eq_nil_of_le; omega
    have he : List.drop (vs.length + 1) (v :: List.drop (j + 1) b.list) = List.drop (j + (vs.length + 1)) b.list := by
      rw [List.drop_succ_cons, List.drop_drop]; congr 1; omega
    simp [hs, ht, hd, he]

/-- Loading all 128 cells leaves nothing of the old block. -/
theorem setCells_all (vs : List Byte) (b : Block) (h : vs.length = 128) : (setCells b 0 vs).list = vs := by
  rw [list_setCells _ _ _ (by omega)]
  simp [h, b.size]

/-! ### The ports -/

theorem dinPop_nil {s : State} (h : s.din = []) : dinPop s = none := by rw [dinPop, h]

theorem dinPop_cons {s : State} {b : Byte} {bs : List Byte} (h : s.din = b :: bs) :
    dinPop s = some (b, { s with din := bs }) := by rw [dinPop, h]

/-- With room the byte is appended, and the room shrinks. -/
theorem doutPush_room (b : Byte) (s : State) (h : s.hasRoom 1 = true) :
    doutPush b s = some { s with dout := s.dout ++ [b], doutRoom := s.roomAfter 1 } := by
  unfold State.hasRoom at h
  unfold doutPush State.roomAfter
  rcases hr : s.doutRoom with _ | _ | k <;> simp_all

theorem doutPush_full (b : Byte) (s : State) (h : s.doutRoom = some 0) : doutPush b s = none := by
  rw [doutPush, h]

theorem hasRoom_zero (s : State) : s.hasRoom 0 = true := by
  unfold State.hasRoom; split <;> simp

theorem hasRoom_mono {s : State} {m n : Nat} (h : s.hasRoom n = true) (hm : m ≤ n) : s.hasRoom m = true := by
  unfold State.hasRoom at *; split at h <;> simp_all; omega

/-- Only `doutRoom` matters to the room. -/
theorem hasRoom_congr {s t : State} (n : Nat) (h : t.doutRoom = s.doutRoom) : t.hasRoom n = s.hasRoom n := by
  simp [State.hasRoom, h]

/-- Room for `a + b` bytes leaves room for `b` after `a`. -/
theorem hasRoom_after {s t : State} {a b : Nat} (h : s.hasRoom (a + b) = true) (ht : t.doutRoom = s.roomAfter a) :
    t.hasRoom b = true := by
  unfold State.hasRoom at *
  rw [ht]
  unfold State.roomAfter
  rcases hr : s.doutRoom with _ | n
  · rfl
  · simp [hr] at h ⊢; omega

theorem hasRoom_none {s : State} (n : Nat) (h : s.doutRoom = none) : s.hasRoom n = true := by
  simp [State.hasRoom, h]

theorem roomAfter_zero (s : State) : s.roomAfter 0 = s.doutRoom := by
  simp [State.roomAfter]

/-! ### The port loops -/

/-- With `k` bytes offered the reading loop runs to its end: the bytes fill the cells from `j` on. -/
theorem loadBytes_enough (p : Nat → Progress) (k j : Nat) (s : State) (h : k ≤ s.din.length) :
    loadBytes p k j s = .goOn { s with blk := setCells s.blk j (s.din.take k), din := s.din.drop k } := by
  induction k generalizing j s with
  | zero => simp [loadBytes, setCells]
  | succ k ih =>
    rcases hd : s.din with _ | ⟨b, bs⟩
    · simp [hd] at h
    · rw [loadBytes, dinPop_cons hd]
      simp only []
      rw [ih]
      · simp [setCells]
      · simp [hd] at h; simpa using h

/-- With fewer bytes offered it takes them all and waits. -/
theorem loadBytes_short (p : Nat → Progress) (k j : Nat) (s : State) (h : s.din.length < k) :
    loadBytes p k j s =
      .stop (waitAt (p (j + s.din.length)) { s with blk := setCells s.blk j s.din, din := [] }) := by
  induction k generalizing j s with
  | zero => omega
  | succ k ih =>
    rcases hd : s.din with _ | ⟨b, bs⟩
    · rw [loadBytes, dinPop_nil hd]
      cases s
      subst hd
      simp [setCells]
    · rw [loadBytes, dinPop_cons hd]
      simp only []
      rw [ih]
      · simp [setCells, Nat.add_assoc, Nat.add_comm 1]
      · simp [hd] at h; simpa using h

/-- With room for all of them the writing loop pushes the bytes and runs to its end. -/
theorem emitBytes_room (p : Nat → Progress) (bs : List Byte) (j : Nat) (s : State) (h : s.hasRoom bs.length = true) :
    emitBytes p bs j s = .goOn { s with dout := s.dout ++ bs, doutRoom := s.roomAfter bs.length } := by
  induction bs generalizing j s with
  | nil => simp [emitBytes, roomAfter_zero]
  | cons b bs ih =>
    rw [emitBytes, doutPush_room b s (hasRoom_mono h (by simp))]
    simp only []
    rw [ih]
    · simp [State.roomAfter, Function.comp_def, Nat.sub_sub, Nat.add_comm]
    · unfold State.hasRoom State.roomAfter at *
      rcases hr : s.doutRoom with _ | n <;> simp_all; omega

/-- With room for `k` of them only it pushes those and waits. -/
theorem emitBytes_full (p : Nat → Progress) (bs : List Byte) (j k : Nat) (s : State) (hk : s.doutRoom = some k)
    (h : k < bs.length) :
    emitBytes p bs j s =
      .stop (waitAt (p (j + k)) { s with dout := s.dout ++ bs.take k, doutRoom := some 0 }) := by
  induction bs generalizing j k s with
  | nil => simp at h
  | cons b bs ih =>
    rcases k with _ | k
    · rw [emitBytes, doutPush_full b s hk]
      simp [← hk]
    · rw [emitBytes, doutPush_room b s (by simp [State.hasRoom, hk])]
      simp only []
      rw [ih _ k]
      · simp [Nat.add_assoc, Nat.add_comm 1]
      · simp [State.roomAfter, hk]
      · simpa using h

/-! ### Sequencing -/

@[simp] theorem goOn_andThen (s : State) (k : State → Flow) : (Flow.goOn s).andThen k = k s := rfl
@[simp] theorem stop_andThen (s : State) (k : State → Flow) : (Flow.stop s).andThen k = .stop s := rfl
@[simp] theorem close_goOn (s : State) : (Flow.goOn s).close = complete s := rfl
@[simp] theorem close_stop (s : State) : (Flow.stop s).close = s := rfl

theorem andThen_assoc (f : Flow) (k l : State → Flow) : (f.andThen k).andThen l = f.andThen fun s => (k s).andThen l := by
  cases f <;> rfl

/-! ### The round check -/

/-- A legal count runs the body, with that count (30_encoding.md R85 step 4). -/
theorem withRounds_legal (r : RoundCount) (i : Instr) (s : State) (body : RoundCount → State) :
    withRounds (BitVec.ofNat 4 r.val) i s body = body r := by
  obtain ⟨v, h1, h2⟩ := r
  have hv : (BitVec.ofNat 4 v).toNat = v := by rw [BitVec.toNat_ofNat]; omega
  simp [withRounds, operandR, hv, h1, h2]

/-- Any other count raises ROUNDS_RANGE with the command's word (30_encoding.md R85 step 3). -/
theorem withRounds_illegal (r : BitVec 4) (i : Instr) (s : State) (body : RoundCount → State)
    (h : r.toNat < 1 ∨ 8 < r.toNat) : withRounds r i s body = raise .roundsRange (encode i) s := by
  have : ¬ (1 ≤ r.toNat ∧ r.toNat ≤ 8) := by omega
  simp [withRounds, operandR, this]

/-- Every round field is one or the other. -/
theorem rounds_cases (r : BitVec 4) : (∃ rc : RoundCount, r = BitVec.ofNat 4 rc.val) ∨ r.toNat < 1 ∨ 8 < r.toNat := by
  by_cases h : 1 ≤ r.toNat ∧ r.toNat ≤ 8
  · exact .inl ⟨⟨r.toNat, h.1, h.2⟩, by simp⟩
  · exact .inr (by omega)

end Machine

end Sys2Proof
end

