-- ==== Sys2Proof/Laws/Cipher.lean ====
section
/-! SUPPORT. What the round operations do to the whole state, in terms of the pure functions. -/

namespace Sys2Proof.Machine

@[simp] theorem get_xorByte {n : Nat} (s : Bytes n) (k : Byte) (i : Fin n) : (xorByte s k).get i = s.get i ^^^ k := by
  simp [Bytes.get, xorByte]

@[simp] theorem get_xorBytes {n : Nat} (a b : Bytes n) (i : Fin n) : (xorBytes a b).get i = a.get i ^^^ b.get i := by
  simp [Bytes.get, xorBytes]

@[simp] theorem left_roundBlock (b : Block) (k : Byte) : left (roundBlock b k) = (roundHalves (left b) (right b) k).1 := by
  simp [roundBlock]

@[simp] theorem right_roundBlock (b : Block) (k : Byte) :
    right (roundBlock b k) = (roundHalves (left b) (right b) k).2 := by
  simp [roundBlock]

@[simp] theorem left_swapBlock (b : Block) : left (swapBlock b) = right b := by simp [swapBlock]
@[simp] theorem right_swapBlock (b : Block) : right (swapBlock b) = left b := by simp [swapBlock]

theorem swapBlock_join (l r : Half) : swapBlock (join l r) = join r l := by simp [swapBlock]

/-- The rounds on the state change BLK and SK only: BLK to the pure rounds of its halves, SK to the last subkey. -/
theorem runRounds_eq (k : Nat → Byte) (n : Nat) (s : State) :
    runRounds k n s = { s with
      blk := join (roundsHalves k n (left s.blk, right s.blk)).1 (roundsHalves k n (left s.blk, right s.blk)).2,
      sk := if n = 0 then s.sk else k (n - 1) } := by
  induction n with
  | zero => simp [runRounds, roundsHalves]
  | succ n ih => simp [runRounds, ih, applyRound, setSubkey, roundsHalves, roundBlock]

/-- The block body on the state: BLK is transformed, SK holds the last subkey, nothing else changes. -/
theorem blockTransform_eq (dir : Direction) (r : RoundCount) (s : State) :
    blockTransform dir r s = { s with
      blk := transform s.blk s.key r dir, sk := subkey s.key r dir (r.val - 1) } := by
  have hr : r.val ≠ 0 := by have := r.min; omega
  simp [blockTransform, runRounds_eq, applySwap, transform, hr, swapBlock_join]

/-- The last subkey of each direction (42_blockcipher.md R151, R152). -/
theorem subkey_last_encrypt (K : Byte) (r : RoundCount) : subkey K r .encrypt (r.val - 1) = rotl8 K r.val := by
  have h := r.min
  simp only [subkey, subkeyEnc]
  congr 1; omega

theorem subkey_last_decrypt (K : Byte) (r : RoundCount) : subkey K r .decrypt (r.val - 1) = rotl8 K 1 := by
  have h := r.min
  simp only [subkey, subkeyDec]
  congr 1; omega

end Sys2Proof.Machine
end

