-- ==== Sys2Proof/Laws/Encoding.lean ====
section
/-! SUPPORT. Command words as numbers: the fields of a word, the word of three fields, and what a format's mask asks of a word. -/

namespace Sys2Proof

theorem toNat_fieldsWord (op rf : BitVec 4) (imm : BitVec 24) :
    (fieldsWord op rf imm).toNat = op.toNat * 2 ^ 28 + rf.toNat * 2 ^ 24 + imm.toNat := by
  rw [fieldsWord, BitVec.toNat_ofNat]; omega

theorem toNat_opPattern (op : BitVec 4) : (opPattern op).toNat = op.toNat * 2 ^ 28 := by
  rw [opPattern, toNat_fieldsWord]; simp

theorem toNat_opField (w : Word) : (opField w).toNat = w.toNat / 2 ^ 28 := by
  simp [opField, BitVec.extractLsb'_toNat, Nat.shiftRight_eq_div_pow]; omega

theorem toNat_rfField (w : Word) : (rfField w).toNat = w.toNat / 2 ^ 24 % 2 ^ 4 := by
  simp [rfField, BitVec.extractLsb'_toNat, Nat.shiftRight_eq_div_pow]

theorem toNat_immField (w : Word) : (immField w).toNat = w.toNat % 2 ^ 24 := by
  simp [immField, BitVec.extractLsb'_toNat]

theorem toNat_immHField (w : Word) : (immHField w).toNat = w.toNat % 2 ^ 8 := by
  simp [immHField, BitVec.extractLsb'_toNat]

@[simp] theorem opField_fieldsWord (op rf : BitVec 4) (imm : BitVec 24) : opField (fieldsWord op rf imm) = op := by
  apply BitVec.eq_of_toNat_eq
  rw [toNat_opField, toNat_fieldsWord]; omega

@[simp] theorem rfField_fieldsWord (op rf : BitVec 4) (imm : BitVec 24) : rfField (fieldsWord op rf imm) = rf := by
  apply BitVec.eq_of_toNat_eq
  rw [toNat_rfField, toNat_fieldsWord]; omega

@[simp] theorem immField_fieldsWord (op rf : BitVec 4) (imm : BitVec 24) :
    immField (fieldsWord op rf imm) = imm := by
  apply BitVec.eq_of_toNat_eq
  rw [toNat_immField, toNat_fieldsWord]; omega

@[simp] theorem immHField_fieldsWord (op rf : BitVec 4) (h : BitVec 8) :
    immHField (fieldsWord op rf (h.setWidth 24)) = h := by
  apply BitVec.eq_of_toNat_eq
  rw [toNat_immHField, toNat_fieldsWord, BitVec.toNat_setWidth]; omega

/-- A word is the word of its three fields. -/
theorem fieldsWord_fields (w : Word) : fieldsWord (opField w) (rfField w) (immField w) = w := by
  apply BitVec.eq_of_toNat_eq
  rw [toNat_fieldsWord, toNat_opField, toNat_rfField, toNat_immField]; omega

/-- Keeping the bits from `k` up. -/
theorem toNat_and_high (w : Word) (k : Nat) :
    (w &&& (BitVec.allOnes 32 <<< k)).toNat = w.toNat / 2 ^ k * 2 ^ k := by
  have h : w &&& (BitVec.allOnes 32 <<< k) = (w >>> k) <<< k := by
    apply BitVec.eq_of_getLsbD_eq
    intro i hi
    simp only [BitVec.getLsbD_and, BitVec.getLsbD_shiftLeft, BitVec.getLsbD_allOnes, BitVec.getLsbD_ushiftRight]
    by_cases h : i < k
    · simp [h]
    · simp [h, hi, show k + (i - k) = i by omega, show i - k < 32 by omega]
  have hle := Nat.div_mul_le_self w.toNat (2 ^ k)
  rw [h]
  simp [BitVec.toNat_shiftLeft, Nat.shiftRight_eq_div_pow, Nat.shiftLeft_eq]
  omega

/-- Keeping the bits below 24. -/
theorem and_low24 (w : Word) : w &&& (BitVec.allOnes 32 >>> 8) = (w <<< 8) >>> 8 := by
  apply BitVec.eq_of_getLsbD_eq
  intro i hi
  simp only [BitVec.getLsbD_and, BitVec.getLsbD_shiftLeft, BitVec.getLsbD_allOnes, BitVec.getLsbD_ushiftRight]
  by_cases h : 8 + i < 32 <;> simp [h, hi]

theorem and_maskR (w : Word) : w &&& Format.r.mask = fieldsWord (opField w) 0 (immField w) := by
  have hm : Format.r.mask = (BitVec.allOnes 32 <<< 28) ||| (BitVec.allOnes 32 >>> 8) := by decide
  have hl : ((w <<< 8) >>> 8).toNat = w.toNat % 2 ^ 24 := by
    simp [Nat.shiftLeft_eq, Nat.shiftRight_eq_div_pow]; omega
  apply BitVec.eq_of_toNat_eq
  rw [hm, BitVec.and_or_distrib_left, and_low24, BitVec.toNat_or, toNat_and_high, hl, toNat_fieldsWord,
    toNat_opField, toNat_immField, ← Nat.shiftLeft_eq, ← Nat.shiftLeft_add_eq_or_of_lt (by omega), Nat.shiftLeft_eq]
  simp

/-! What step 2 of R85 asks of a word, per format. -/

theorem maskZ_iff (w : Word) : w &&& Format.z.mask = opPattern (opField w) ↔ w.toNat % 2 ^ 28 = 0 := by
  rw [← BitVec.toNat_inj, toNat_opPattern, toNat_opField, Format.mask]
  have := toNat_and_high w 0
  simp at this ⊢; omega

theorem maskN_iff (w : Word) : w &&& Format.n.mask = opPattern (opField w) ↔ w.toNat % 2 ^ 28 / 2 ^ 24 = 0 := by
  rw [← BitVec.toNat_inj, toNat_opPattern, toNat_opField, Format.mask]
  have := toNat_and_high w 24
  simp at this ⊢; omega

theorem maskH_iff (w : Word) : w &&& Format.h.mask = opPattern (opField w) ↔ w.toNat % 2 ^ 28 / 2 ^ 8 = 0 := by
  rw [← BitVec.toNat_inj, toNat_opPattern, toNat_opField, Format.mask]
  have := toNat_and_high w 8
  simp at this ⊢; omega

theorem maskR_iff (w : Word) : w &&& Format.r.mask = opPattern (opField w) ↔ w.toNat % 2 ^ 24 = 0 := by
  rw [← BitVec.toNat_inj, toNat_opPattern, toNat_opField, and_maskR, toNat_fieldsWord, toNat_opField, toNat_immField]
  simp

/-- The round field's legality as a Prop. -/
theorem legalRounds_iff (r : BitVec 4) : legalRounds r = true ↔ 1 ≤ r.toNat ∧ r.toNat ≤ 8 := by
  simp [legalRounds]

end Sys2Proof
end

