-- ==== Sys2Proof/Laws/PerInstr.lean ====
section
/-! SUPPORT. One statement per command: the encoder's word is the one R84's row of that name spells. -/

namespace Sys2Proof.Laws.EncodesItsRow

/-- Some row of the opcode table has the command's name, and the command's word matches it:
`(w AND mask) = match` (30_encoding.md R84). -/
def Statement (i : Instr) : Prop :=
  ∃ row ∈ opcodeTable, row.mnemonic = i.mnemonic ∧ row.spelledBy (encode i) = true

/-- The word of three fields matches a format's mask and the opcode's pattern, when the format's must-be-zero fields
are zero. -/
theorem spelled (name : String) (op rf : BitVec 4) (imm : BitVec 24) (f : Format)
    (h : fieldsWord op rf imm &&& f.mask = opPattern (opField (fieldsWord op rf imm))) :
    OpcodeRow.spelledBy ⟨name, f, opPattern op, f.mask⟩ (fieldsWord op rf imm) = true := by
  rw [opField_fieldsWord] at h
  simp [OpcodeRow.spelledBy, h]

theorem spelledN (name : String) (op : BitVec 4) (n : BitVec 24) :
    OpcodeRow.spelledBy ⟨name, .n, opPattern op, Format.n.mask⟩ (fieldsWord op 0 n) = true :=
  spelled _ _ _ _ _ <| (maskN_iff _).2 <| by rw [toNat_fieldsWord]; simp; omega

theorem spelledH (name : String) (op : BitVec 4) (h : BitVec 8) :
    OpcodeRow.spelledBy ⟨name, .h, opPattern op, Format.h.mask⟩ (fieldsWord op 0 (h.setWidth 24)) = true :=
  spelled _ _ _ _ _ <| (maskH_iff _).2 <| by rw [toNat_fieldsWord]; simp; omega

theorem spelledR (name : String) (op r : BitVec 4) :
    OpcodeRow.spelledBy ⟨name, .r, opPattern op, Format.r.mask⟩ (fieldsWord op r 0) = true :=
  spelled _ _ _ _ _ <| (maskR_iff _).2 <| by rw [toNat_fieldsWord]; simp; omega

theorem nop : Statement .nop := by unfold Statement; decide

theorem kgen (n : BitVec 24) : Statement (.kgen n) :=
  ⟨⟨"KGEN", .n, 0x20000000, 0xFF000000⟩, by decide, rfl, spelledN "KGEN" 0x2 n⟩

theorem round : Statement .round := by unfold Statement; decide

theorem swap : Statement .swap := by unfold Statement; decide

theorem benc (r : BitVec 4) : Statement (.benc r) :=
  ⟨⟨"BENC", .r, 0x50000000, 0xF0FFFFFF⟩, by decide, rfl, spelledR "BENC" 0x5 r⟩

theorem bdec (r : BitVec 4) : Statement (.bdec r) :=
  ⟨⟨"BDEC", .r, 0x60000000, 0xF0FFFFFF⟩, by decide, rfl, spelledR "BDEC" 0x6 r⟩

theorem ldblk : Statement .ldblk := by unfold Statement; decide

theorem stblk : Statement .stblk := by unfold Statement; decide

theorem stsk : Statement .stsk := by unfold Statement; decide

theorem lenl (n : BitVec 24) : Statement (.lenl n) :=
  ⟨⟨"LENL", .n, 0xA0000000, 0xFF000000⟩, by decide, rfl, spelledN "LENL" 0xA n⟩

theorem lenh (h : BitVec 8) : Statement (.lenh h) :=
  ⟨⟨"LENH", .h, 0xB0000000, 0xFFFFFF00⟩, by decide, rfl, spelledH "LENH" 0xB h⟩

theorem senc (r : BitVec 4) : Statement (.senc r) :=
  ⟨⟨"SENC", .r, 0xC0000000, 0xF0FFFFFF⟩, by decide, rfl, spelledR "SENC" 0xC r⟩

theorem sdec (r : BitVec 4) : Statement (.sdec r) :=
  ⟨⟨"SDEC", .r, 0xD0000000, 0xF0FFFFFF⟩, by decide, rfl, spelledR "SDEC" 0xD r⟩

end Sys2Proof.Laws.EncodesItsRow
end

