-- ==== Sys2Proof/Laws/Stream.lean ====
section
/-! SUPPORT. Block counts and padding, one turn of each stream loop, and the loops block by block. -/

namespace Sys2Proof.Machine

/-! ### Counts -/

theorem blockCount_le (n : BitVec 32) : blockCount n.toNat ≤ 2 ^ 25 := by unfold blockCount; omega

theorem toNat_startStream_blkCnt (s : State) : (startStream s).blkCnt.toNat = blockCount s.len.toNat := by
  have h := blockCount_le s.len
  rw [startStream_blkCnt, BitVec.toNat_ofNat]; omega

theorem blocksLeft_startStream (s : State) : blocksLeft (startStream s) = blockCount s.len.toNat := by
  rw [blocksLeft, toNat_startStream_blkCnt]; simp

theorem avail_le (n i : Nat) : avail n i ≤ 128 := by unfold avail; omega

/-- The bytes that belong to the first `k` blocks, block by block. -/
theorem min_add_avail (n k : Nat) : min n (128 * k) + avail n k = min n (128 * (k + 1)) := by unfold avail; omega

/-! ### Padding -/

@[simp] theorem list_pad (c : List Byte) : (pad c).list = c.take 128 ++ List.replicate (128 - c.length) 0x00 := rfl

/-- Loading `c` and zeroing the rest of the block is padding `c`. -/
theorem zeroFrom_setCells (b : Block) (c : List Byte) (h : c.length ≤ 128) :
    zeroFrom c.length (setCells b 0 c) = pad c := by
  apply Bytes.ext
  rw [list_zeroFrom, list_setCells _ _ _ (by omega), list_pad]
  simp [List.take_of_length_le h]

/-- Padding a full block changes nothing (43_stream.md R171). -/
theorem pad_full (b : Block) : pad b.list = b := by
  apply Bytes.ext
  simp [← b.size]

theorem pad_eq_of_list {b : Block} {c : List Byte} (h : b.list = c) : pad c = b := by rw [← h, pad_full]

/-! ### One turn of the loops -/

/-- SENC's body with its input offered and its output accepted: one ciphertext block. -/
theorem sencRead_served (i : Instr) (r : RoundCount) (s : State) (hd : availNow s ≤ s.din.length)
    (hr : s.hasRoom 128 = true) :
    sencRead i r 0 s = .goOn { s with
      blk := transform (pad (s.din.take (availNow s))) s.key r .encrypt,
      sk := subkey s.key r .encrypt (r.val - 1),
      din := s.din.drop (availNow s),
      dout := s.dout ++ (transform (pad (s.din.take (availNow s))) s.key r .encrypt).list,
      doutRoom := s.roomAfter 128,
      blkIdx := s.blkIdx + 1 } := by
  have hle : availNow s ≤ 128 := avail_le _ _
  have hl : (s.din.take (availNow s)).length = availNow s := by simp [hd]
  have hz : zeroFrom (availNow s) (setCells s.blk 0 (s.din.take (availNow s))) = pad (s.din.take (availNow s)) := by
    have h := zeroFrom_setCells s.blk (s.din.take (availNow s)) (by omega)
    rwa [hl] at h
  have ha : ∀ (b : Block) (d : List Byte), availNow { s with blk := b, din := d } = availNow s := fun _ _ => rfl
  rw [sencRead, Nat.sub_zero, loadBytes_enough _ _ _ _ hd, goOn_andThen, sencTransform, blockTransform_eq, sencWrite,
    emitBlk]
  simp only [ha, hz]
  rw [emitBytes_room _ _ _ _ (by exact (hasRoom_congr (s := s) _ rfl).trans (by simpa [Bytes.size] using hr))]
  simp [nextBlock, Bytes.size, State.roomAfter]

/-- SENC's body with too few bytes offered: it takes them and waits. -/
theorem sencRead_starved (i : Instr) (r : RoundCount) (s : State) (hd : s.din.length < availNow s) :
    sencRead i r 0 s =
      .stop (waitAt ⟨i, .reading, s.din.length, 0⟩ { s with blk := setCells s.blk 0 s.din, din := [] }) := by
  rw [sencRead, Nat.sub_zero, loadBytes_short _ _ _ _ hd, stop_andThen, Nat.zero_add]

/-- SENC's body with its input offered and too little room: it consumes its input, transforms, pushes what the host
accepts, and waits. -/
theorem sencRead_held (i : Instr) (r : RoundCount) (s : State) (k : Nat) (hd : availNow s ≤ s.din.length)
    (hr : s.doutRoom = some k) (hk : k < 128) :
    sencRead i r 0 s = .stop (waitAt ⟨i, .writing, k, 0⟩ { s with
      blk := transform (pad (s.din.take (availNow s))) s.key r .encrypt,
      sk := subkey s.key r .encrypt (r.val - 1),
      din := s.din.drop (availNow s),
      dout := s.dout ++ (transform (pad (s.din.take (availNow s))) s.key r .encrypt).list.take k,
      doutRoom := some 0 }) := by
  have hle : availNow s ≤ 128 := avail_le _ _
  have hl : (s.din.take (availNow s)).length = availNow s := by simp [hd]
  have hz : zeroFrom (availNow s) (setCells s.blk 0 (s.din.take (availNow s))) = pad (s.din.take (availNow s)) := by
    have h := zeroFrom_setCells s.blk (s.din.take (availNow s)) (by omega)
    rwa [hl] at h
  have ha : ∀ (b : Block) (d : List Byte), availNow { s with blk := b, din := d } = availNow s := fun _ _ => rfl
  rw [sencRead, Nat.sub_zero, loadBytes_enough _ _ _ _ hd, goOn_andThen, sencTransform, blockTransform_eq, sencWrite,
    emitBlk]
  simp only [ha, hz]
  rw [emitBytes_full _ _ _ k _ (by exact hr) (by simpa [Bytes.size] using hk), stop_andThen]
  simp

/-- SDEC's body, past the length check, with its input offered and its output accepted: one plaintext block, of which
`pushLen` bytes are pushed. -/
theorem sdecRead_served (i : Instr) (r : RoundCount) (s : State) (hd : 128 ≤ s.din.length)
    (hr : s.hasRoom (pushLen { s with blk := transform (pad (s.din.take 128)) s.key r .decrypt }) = true) :
    sdecRead i r 0 s = .goOn { s with
      blk := transform (pad (s.din.take 128)) s.key r .decrypt,
      sk := subkey s.key r .decrypt (r.val - 1),
      din := s.din.drop 128,
      dout := s.dout ++ (transform (pad (s.din.take 128)) s.key r .decrypt).list.take
        (pushLen { s with blk := transform (pad (s.din.take 128)) s.key r .decrypt }),
      doutRoom := s.roomAfter (min (pushLen { s with blk := transform (pad (s.din.take 128)) s.key r .decrypt }) 128),
      blkIdx := s.blkIdx + 1 } := by
  have hb : setCells s.blk 0 (s.din.take 128) = pad (s.din.take 128) :=
    (pad_eq_of_list (setCells_all _ _ (by simp [hd]))).symm
  have hp : ∀ (b : Block) (k : Byte) (d : List Byte),
      pushLen { s with blk := b, sk := k, din := d } = pushLen { s with blk := b } := fun _ _ _ => rfl
  rw [sdecRead, Nat.sub_zero, loadBytes_enough _ _ _ _ hd, goOn_andThen, sdecTransform, blockTransform_eq]
  simp only [hb, hp]
  rw [sdecWrite, emitBlk, List.drop_zero, emitBytes_room _ _ _ _ (hasRoom_mono (by exact hr) (by simp))]
  simp [nextBlock, Bytes.size, State.roomAfter]

/-- SDEC's body, past the length check, with too few bytes offered: it takes them and waits. -/
theorem sdecRead_starved (i : Instr) (r : RoundCount) (s : State) (hd : s.din.length < 128) :
    sdecRead i r 0 s =
      .stop (waitAt ⟨i, .reading, s.din.length, 0⟩ { s with blk := setCells s.blk 0 s.din, din := [] }) := by
  rw [sdecRead, Nat.sub_zero, loadBytes_short _ _ _ _ hd, stop_andThen, Nat.zero_add]

/-- SDEC's body, past the length check, with its input offered and too little room: it consumes its input, transforms,
pushes what the host accepts of the `pushLen` bytes, and waits. -/
theorem sdecRead_held (i : Instr) (r : RoundCount) (s : State) (k : Nat) (hd : 128 ≤ s.din.length)
    (hr : s.doutRoom = some k) (h128 : k < 128)
    (hk : k < pushLen { s with blk := transform (pad (s.din.take 128)) s.key r .decrypt }) :
    sdecRead i r 0 s = .stop (waitAt
      ⟨i, .writing, k, pushLen { s with blk := transform (pad (s.din.take 128)) s.key r .decrypt }⟩ { s with
        blk := transform (pad (s.din.take 128)) s.key r .decrypt,
        sk := subkey s.key r .decrypt (r.val - 1),
        din := s.din.drop 128,
        dout := s.dout ++ (transform (pad (s.din.take 128)) s.key r .decrypt).list.take k,
        doutRoom := some 0 }) := by
  have hb : setCells s.blk 0 (s.din.take 128) = pad (s.din.take 128) :=
    (pad_eq_of_list (setCells_all _ _ (by simp [hd]))).symm
  have hp : ∀ (b : Block) (x : Byte) (d : List Byte),
      pushLen { s with blk := b, sk := x, din := d } = pushLen { s with blk := b } := fun _ _ _ => rfl
  rw [sdecRead, Nat.sub_zero, loadBytes_enough _ _ _ _ hd, goOn_andThen, sdecTransform, blockTransform_eq]
  simp only [hb, hp]
  rw [sdecWrite, emitBlk, List.drop_zero,
    emitBytes_full _ _ _ k _ (by exact hr) (by simp [Bytes.size]; exact ⟨hk, h128⟩), stop_andThen]
  simp [List.take_take, Nat.min_eq_left hk.le]

/-! ### The loops -/

theorem sencLoop_add (i : Instr) (r : RoundCount) (m n : Nat) (s : State) :
    sencLoop i r (m + n) s = (sencLoop i r m s).andThen (sencLoop i r n) := by
  induction m generalizing s with
  | zero => simp [sencLoop]
  | succ m ih =>
    rw [Nat.add_right_comm, sencLoop, sencLoop, andThen_assoc]
    congr 1; funext t; exact ih t

theorem sdecLoop_add (i : Instr) (r : RoundCount) (m n : Nat) (s : State) :
    sdecLoop i r (m + n) s = (sdecLoop i r m s).andThen (sdecLoop i r n) := by
  induction m generalizing s with
  | zero => simp [sdecLoop]
  | succ m ih =>
    rw [Nat.add_right_comm, sdecLoop, sdecLoop, andThen_assoc]
    congr 1; funext t; exact ih t

/-- The state after `k` blocks of a stream command started in `s`: `len` bytes in all, `out` pushed so far. -/
def afterBlocks (s : State) (r : RoundCount) (dir : Direction) (k : Nat) (out : List Byte) : State :=
  { s with
    blkCnt := BitVec.ofNat 26 (blockCount s.len.toNat),
    blkIdx := BitVec.ofNat 26 k,
    blk := if k = 0 then s.blk else blockOf (s.din.take s.len.toNat) s.key r dir (k - 1),
    sk := if k = 0 then s.sk else subkey s.key r dir (r.val - 1),
    din := s.din.drop (min s.len.toNat (128 * k)),
    dout := s.dout ++ out,
    doutRoom := s.roomAfter out.length }

theorem afterBlocks_zero (s : State) (r : RoundCount) (dir : Direction) : afterBlocks s r dir 0 [] = startStream s := by
  simp [afterBlocks, startStream, roomAfter_zero]

/-- The chunk of block `k`, read from the bytes still on DIN. -/
theorem chunk_take_din (din : List Byte) (len k : Nat) :
    (din.drop (min len (128 * k))).take (avail len k) = chunk (din.take len) k := by
  unfold chunk avail at *
  apply List.ext_getElem
  · simp; omega
  · intro j h1 h2
    simp at h1 h2 ⊢
    congr 1; omega

theorem toNat_blkIdx_afterBlocks (s : State) (r : RoundCount) (dir : Direction) (k : Nat) (out : List Byte)
    (hk : k ≤ blockCount s.len.toNat) : (afterBlocks s r dir k out).blkIdx.toNat = k := by
  have h := blockCount_le s.len
  simp only [afterBlocks, BitVec.toNat_ofNat]; omega

theorem availNow_afterBlocks (s : State) (r : RoundCount) (dir : Direction) (k : Nat) (out : List Byte)
    (hk : k ≤ blockCount s.len.toNat) : availNow (afterBlocks s r dir k out) = avail s.len.toNat k := by
  rw [availNow, toNat_blkIdx_afterBlocks _ _ _ _ _ hk]; rfl

/-- SENC's loop over its first `k` blocks, their input offered and their output accepted. -/
theorem sencLoop_served (i : Instr) (r : RoundCount) (s : State) (k : Nat) (hk : k ≤ blockCount s.len.toNat)
    (hd : min s.len.toNat (128 * k) ≤ s.din.length) (hr : s.hasRoom (128 * k) = true) :
    sencLoop i r k (startStream s) = .goOn (afterBlocks s r .encrypt k
      ((List.range k).flatMap fun j => (blockOf (s.din.take s.len.toNat) s.key r .encrypt j).list)) := by
  induction k with
  | zero => simp [sencLoop, afterBlocks_zero]
  | succ k ih =>
    have hout : ((List.range k).flatMap fun j =>
        (blockOf (s.din.take s.len.toNat) s.key r .encrypt j).list).length = 128 * k := by
      simp [List.length_flatMap, Bytes.size, Nat.mul_comm]
    rw [sencLoop_add, ih (by omega) (by omega) (hasRoom_mono hr (by omega)), goOn_andThen, sencLoop]
    have hav := availNow_afterBlocks s r .encrypt k ((List.range k).flatMap fun j =>
      (blockOf (s.din.take s.len.toNat) s.key r .encrypt j).list) (by omega)
    have hma := min_add_avail s.len.toNat k
    rw [sencRead_served]
    · simp only [hav, goOn_andThen, sencLoop, Flow.goOn.injEq]
      have hc := chunk_take_din s.din s.len.toNat k
      have hidx : BitVec.ofNat 26 k + 1 = BitVec.ofNat 26 (k + 1) := by
        apply BitVec.eq_of_toNat_eq; simp
      simp only [afterBlocks, hc, blockOf, List.drop_drop, List.range_succ, List.flatMap_append, hidx, ← hma]
      simp [State.roomAfter, Bytes.size, Function.comp_def, Nat.sub_sub]
    · rw [hav]; simp [afterBlocks]; omega
    · exact hasRoom_after (s := s) (a := 128 * k) (by simpa [Nat.mul_succ] using hr) (by rw [afterBlocks, hout])

/-- SDEC's loop over its first `k` blocks, all full and none of them the last, their input offered and their output
accepted: each is pushed in full. -/
theorem sdecLoop_served (i : Instr) (r : RoundCount) (s : State) (k : Nat) (hk : 128 * k < s.len.toNat)
    (hd : 128 * k ≤ s.din.length) (hr : s.hasRoom (128 * k) = true) :
    sdecLoop i r k (startStream s) = .goOn (afterBlocks s r .decrypt k
      (decryptedBlocks (s.din.take s.len.toNat) s.key r k)) := by
  induction k with
  | zero => simp [sdecLoop, afterBlocks_zero, decryptedBlocks]
  | succ k ih =>
    have hbc : k + 1 < blockCount s.len.toNat := by unfold blockCount; omega
    have hav := availNow_afterBlocks s r .decrypt k (decryptedBlocks (s.din.take s.len.toNat) s.key r k) (by omega)
    have hfull : avail s.len.toNat k = 128 := by unfold avail; omega
    have hout : (decryptedBlocks (s.din.take s.len.toNat) s.key r k).length = 128 * k := by
      simp [decryptedBlocks, List.length_flatMap, Bytes.size, Nat.mul_comm]
    have hidx := toNat_blkIdx_afterBlocks s r .decrypt k (decryptedBlocks (s.din.take s.len.toNat) s.key r k)
      (by omega)
    have hcnt : (afterBlocks s r .decrypt k (decryptedBlocks (s.din.take s.len.toNat) s.key r k)).blkCnt.toNat =
        blockCount s.len.toNat := toNat_startStream_blkCnt s
    have hpush : ∀ b, pushLen { afterBlocks s r .decrypt k (decryptedBlocks (s.din.take s.len.toNat) s.key r k)
        with blk := b } = 128 := by
      intro b
      rw [pushLen, if_neg]
      simp only [hidx, hcnt]; omega
    have hmin : min s.len.toNat (128 * k) = 128 * k := by omega
    rw [sdecLoop_add, ih (by omega) (by omega) (hasRoom_mono hr (by omega)), goOn_andThen, sdecLoop, sdecBody, hav,
      hfull, if_neg (by omega), sdecRead_served]
    · have hc := chunk_take_din s.din s.len.toNat k
      rw [hfull, hmin] at hc
      have hn : BitVec.ofNat 26 k + 1 = BitVec.ofNat 26 (k + 1) := by
        apply BitVec.eq_of_toNat_eq; simp
      simp only [hpush, goOn_andThen, sdecLoop, Flow.goOn.injEq]
      have hmin' : min s.len.toNat (128 * (k + 1)) = 128 * k + 128 := by omega
      simp only [afterBlocks, hmin, hmin', hc, blockOf, List.drop_drop, decryptedBlocks, List.range_succ,
        List.flatMap_append, hn]
      simp [State.roomAfter, Bytes.size, Function.comp_def, Nat.sub_sub]
    · simp only [afterBlocks, hmin, List.length_drop]; omega
    · rw [hpush]
      exact hasRoom_after (s := s) (a := 128 * k) (by simpa [Nat.mul_succ] using hr) (by rw [afterBlocks, hout])

end Sys2Proof.Machine
end

