-- ==== Sys2Proof/Tests/Slice0.lean ====
section
/-! SUPPORT. Tests: ill-formed commands, words written out from the encodings, one step against the spec's vectors (95_test_vectors.md), and witnesses that the statements' hypotheses can be met. -/

namespace Sys2Proof.Tests

open Machine

/-! ### Helpers -/

/-- The next state, if there is one. -/
def nextOf : Host.Outcome State Fault Refusal → Option State
  | .next t => some t
  | .fault _ => none
  | .refused _ => none

/-- What a command leaves. -/
def ran (i : Instr) (s : State) : Option State := nextOf (exec i s)

/-- What one step leaves. -/
def stepped (s : State) : Option State := nextOf (step s)

/-- `n` times the byte `v`. -/
def rep (n : Nat) (v : Byte) : List Byte := List.replicate n v

/-- The bytes `a`, `a + 1`, ..., `n` of them. -/
def upFrom (a n : Nat) : List Byte := (List.range n).map fun j => BitVec.ofNat 8 (a + j)

/-- The reset state with the given bytes offered on DIN. -/
def offered (bs : List Byte) : State := { State.reset with din := bs }

/-- The reset state with BLK = 0x00..0x7F. -/
def counting : State := { State.reset with blk := pad (upFrom 0 128) }

/-- The reset state with `LEN = n` and the given bytes offered on DIN. -/
def stream (n : Nat) (bs : List Byte) : State := { State.reset with len := BitVec.ofNat 32 n, din := bs }

/-- The reset state with one word on CMD. -/
def sending (w : Word) : State := { State.reset with cmd := [w] }

/-- LDBLK waits for its first byte. -/
def loading : State := { State.reset with busy := true, cur := some ⟨.ldblk, .reading, 0, 0⟩ }

/-- A halted engine: the word 0x00000000 has been accepted (VE.2). -/
def halted : State := { State.reset with err := 1, halt := true, accepted := 1 }

/-! ### Well-formedness: each check refuses an ill-formed command -/

theorem test_benc_0_ill_formed : (Instr.benc 0).wellFormed = false := by decide
theorem test_benc_9_ill_formed : (Instr.benc 9).wellFormed = false := by decide
theorem test_bdec_0_ill_formed : (Instr.bdec 0).wellFormed = false := by decide
theorem test_bdec_15_ill_formed : (Instr.bdec 15).wellFormed = false := by decide
theorem test_senc_0_ill_formed : (Instr.senc 0).wellFormed = false := by decide
theorem test_senc_9_ill_formed : (Instr.senc 9).wellFormed = false := by decide
theorem test_sdec_0_ill_formed : (Instr.sdec 0).wellFormed = false := by decide
theorem test_sdec_9_ill_formed : (Instr.sdec 9).wellFormed = false := by decide
theorem test_benc_1_and_8_well_formed : (Instr.benc 1).wellFormed = true ∧ (Instr.benc 8).wellFormed = true := by decide

/-! ### Decoding: words written out as `op`, `rf`, `imm` from 30_encoding.md R81, R84 (VE.1) -/

theorem test_decode_nop : decode 0b0001_0000_000000000000000000000000 = .ok .nop := by decide
theorem test_decode_kgen : decode 0b0010_0000_100000000000000000000001 = .ok (.kgen 0x800001) := by decide
theorem test_decode_round : decode 0b0011_0000_000000000000000000000000 = .ok .round := by decide
theorem test_decode_swap : decode 0b0100_0000_000000000000000000000000 = .ok .swap := by decide
theorem test_decode_benc : decode 0b0101_0011_000000000000000000000000 = .ok (.benc 3) := by decide
theorem test_decode_bdec : decode 0b0110_1000_000000000000000000000000 = .ok (.bdec 8) := by decide
theorem test_decode_ldblk : decode 0b0111_0000_000000000000000000000000 = .ok .ldblk := by decide
theorem test_decode_stblk : decode 0b1000_0000_000000000000000000000000 = .ok .stblk := by decide
theorem test_decode_stsk : decode 0b1001_0000_000000000000000000000000 = .ok .stsk := by decide
theorem test_decode_lenl : decode 0b1010_0000_000000000000000100101100 = .ok (.lenl 300) := by decide
theorem test_decode_lenh : decode 0b1011_0000_000000000000000010000001 = .ok (.lenh 0x81) := by decide
theorem test_decode_senc : decode 0b1100_1000_000000000000000000000000 = .ok (.senc 8) := by decide
theorem test_decode_sdec : decode 0b1101_0001_000000000000000000000000 = .ok (.sdec 1) := by decide
theorem test_decode_illegal_rounds : decode 0b0101_0000_000000000000000000000000 = .ok (.benc 0) := by decide

/-- VE.2: the reserved opcodes. -/
theorem test_decode_reserved : [0x00000000, 0xFFFFFFFF, 0xE0000000].map decode =
    List.replicate 3 (.error .reservedOp) := by decide

/-- VE.2: a must-be-zero bit set. -/
theorem test_decode_must_be_zero : [0x10000001, 0x11000000, 0x21000001, 0x30000001, 0x53000001, 0xB0000100, 0xB1000000,
    0xC9000001].map decode = List.replicate 8 (.error .mustBeZero) := by decide

theorem test_decodeTableWord : decodeTableWord 32 0xB00000FF = some (.lenh 0xFF) ∧ decodeTableWord 32 0 = none := by
  decide

/-! ### Assembler (VE.4, 30_encoding.md R89) -/

theorem test_assemble_comment : assembleLine
    ['l', 'e', 'n', 'l', ' ', '0', 'x', '1', '2', 'C', ' ', '#', ' ', 'x'] = some [.lenl 300] := by decide
theorem test_assemble_setlen : assembleLine ['s', 'e', 't', 'l', 'e', 'n', ' ', '0', 'x', '0', '1', '0', '0', '0', '0', '1',
    '0'] = some [.lenl 0x10, .lenh 1] := by decide
theorem test_assemble_subk_d : assembleLine ['s', 'u', 'b', 'k', '.', 'd', ' ', '3', ',', ' ', '0'] = some [.kgen 3] := by
  decide
theorem test_assemble_rejects_range : assembleLine ['l', 'e', 'n', 'h', ' ', '2', '5', '6'] = none := by decide

/-! ### One command on a small state -/

/-- VK.1, row 16777215. -/
theorem test_kgen_large : (ran (.kgen 0xFFFFFF) .reset).map (·.sk) = some 0x4B := by decide
/-- VK.2 as a command: KGEN in a configuration with another key (00_scope.md R5). -/
theorem test_kgen_other_key : (ran (.kgen 4) (State.resetFor ⟨0xA5⟩)).map (fun t => (t.sk, t.key)) = some (0x5A, 0xA5) := by
  decide

/-- VR.2, from its state after `ldblk; kgen 1`. -/
theorem test_round_keyed : (ran .round { counting with sk := 0x2D }).map (·.blk.list) =
    some (upFrom 0x40 64 ++ rep 64 0x6D) := by decide +kernel
/-- VR.3, its first round. -/
theorem test_round_keyless : (ran .round counting).map (·.blk.list) = some (upFrom 0x40 64 ++ rep 64 0x40) := by decide +kernel

/-- VR.4. -/
theorem test_swap : (ran .swap counting).map (·.blk.list) = some (upFrom 0x40 64 ++ upFrom 0 64) := by decide +kernel

/-- VB.3, row 3: BLK and SK. -/
theorem test_benc_3 : (ran (.benc 3) counting).map (fun t => (t.blk.list, t.sk)) =
    some ((upFrom 64 64).map (· ^^^ 0xEE) ++ (upFrom 0 64).map (· ^^^ 0x77), 0xB4) := by decide +kernel
/-- VE.2: BENC with `r = 9`. -/
theorem test_benc_9 : (ran (.benc 9) counting).map (fun t => (t.err, t.errInfo, t.halt, t.sk)) =
    some (2, 0x59000000, true, 0) := by decide

/-- VB.4, row 2: BLK and SK. -/
theorem test_bdec_2 : (ran (.bdec 2) counting).map (fun t => (t.blk.list, t.sk)) =
    some ((upFrom 0 64).map (· ^^^ 0x77) ++ rep 64 0x1A, 0x2D) := by decide +kernel
/-- VB.2, row 8. -/
theorem test_bdec_8 : (ran (.bdec 8) .reset).map (·.blk.list) = some (rep 64 0x11 ++ rep 64 0x0F) := by decide

/-- VD.2. -/
theorem test_ldblk : (ran .ldblk (offered (upFrom 0 130))).map (fun t => (t.blk.list, t.din)) =
    some (upFrom 0 128, [0x80, 0x81]) := by decide
/-- VD.3: 100 bytes only. -/
theorem test_ldblk_waits : (ran .ldblk (offered (upFrom 0 100))).map (fun t => (t.blk.list, t.busy, t.err)) =
    some (upFrom 0 100 ++ rep 28 0, true, 0) := by decide

/-- R202: ascending index. -/
theorem test_stblk : (ran .stblk counting).map (·.dout) = some (upFrom 0 128) := by decide +kernel
/-- R203: one byte, appended. -/
theorem test_stsk : (ran .stsk { State.reset with sk := 0x5A, dout := [1] }).map (·.dout) = some [1, 0x5A] := by decide

/-- VS.3: LENL clears the high byte. -/
theorem test_lenl : (ran (.lenl 0x20) (stream 0x01000010 [])).map (·.len) = some 0x20 := by decide
/-- VS.3. -/
theorem test_lenh : (ran (.lenh 0xFF) (stream 0x00FFFFFF [])).map (·.len) = some 0xFFFFFFFF := by decide

/-- VS.5. -/
theorem test_senc_one_byte : (ran (.senc 1) (stream 1 [0x41])).map (fun t => (t.dout, t.blkCnt, t.blkIdx, t.sk, t.blk.list)) =
    some ([0x6C] ++ rep 63 0x2D ++ rep 64 0, 1, 1, 0x2D, [0x6C] ++ rep 63 0x2D ++ rep 64 0) := by decide +kernel
/-- VS.4. -/
theorem test_senc_empty : (ran (.senc 3) (stream 0 [0x55])).map (fun t => (t.dout, t.din, t.sk)) = some ([], [0x55], 0) := by
  decide

/-- VS.8: all but one byte of the last block is stripped, and none of the block before it. -/
theorem test_sdec_strips_last_block : (ran (.sdec 4) (stream 256
    (rep 64 0xF0 ++ rep 64 0xEE ++ [0xF1] ++ rep 63 0xF0 ++ rep 64 0xEE))).map (·.dout) = some (rep 128 0 ++ [1]) := by
  decide +kernel
/-- VS.13. -/
theorem test_sdec_format : (ran (.sdec 1) (stream 5 [1, 2, 3, 4, 5])).map
    (fun t => ((t.blkCnt, t.blkIdx, t.err, t.errInfo), t.halt, t.dout, t.din)) =
    some ((1, 0, 3, 5), true, [], [1, 2, 3, 4, 5]) := by decide

/-! ### One step -/

/-- VE.2 and VD.4: an illegal word halts the engine, and a halted engine accepts nothing. -/
theorem test_step_illegal : (stepped (sending 0xC9000001)).map (fun t => (t.err, t.errInfo, t.halt, t.busy, t.cmd)) =
    some (1, 0xC9000001, true, false, []) := by decide
theorem test_step_halted : (stepped { halted with cmd := [0x20000001] }).map (fun t => (t.sk, t.cmd)) =
    some (0, [0x20000001]) := by decide
/-- VD.3: the wait ends when the host offers the other 28 bytes. -/
theorem test_step_resumes : (stepped { loading with
    blk := pad (upFrom 0 100), cur := some ⟨.ldblk, .reading, 100, 0⟩, din := upFrom 100 28 }).map
    (fun t => (t.blk.list, t.busy)) = some (upFrom 0 128, false) := by decide +kernel
/-- R252: reset abandons a command in progress. -/
theorem test_step_reset : (stepped { loading with rst := true, sk := 7, din := [1] }).map
    (fun t => (t.busy, t.cur, t.sk, t.din)) = some (false, none, 0, [1]) := by decide
/-- R64, R51: the host may stop sending; a word it withdraws is not accepted. -/
theorem test_withdrawn_word_is_not_accepted : (stepped (hostMove (.withdrawWords 0) (sending 0x20000001))).map
    (fun t => (t.sk, t.accepted)) = some (0, 0) := by decide
theorem test_withFetchWord_runs : (stepped (State.reset.withFetchWord 32 0x20000001)).map (·.sk) = some 0x2D := by decide

/-! ### Witnesses: the hypotheses of each statement can be met, at the ends of their ranges -/

theorem witness_EncodeOfDecode : decode 0xA0FFFFFF = .ok (.lenl 0xFFFFFF) := by decide

theorem witness_WordSpellsRowByMaskAndMatch :
    (⟨"SENC", .r, 0xC0000000, 0xF0FFFFFF⟩ : OpcodeRow) ∈ opcodeTable ∧
      (0xCF000000 : Word) &&& 0xF0FFFFFF = 0xC0000000 := by decide

theorem witness_OperandIsNaturalOfField : decode 0x20000001 = .ok (.kgen 1) ∧ decode 0xA0FFFFFF = .ok (.lenl 0xFFFFFF) ∧
    decode 0xB00000FF = .ok (.lenh 255) ∧ decode 0x5F000000 = .ok (.benc 15) ∧ decode 0x60000000 = .ok (.bdec 0) ∧
    decode 0xC8000000 = .ok (.senc 8) ∧ decode 0xD1000000 = .ok (.sdec 1) := by decide

/-- An idle engine out of reset, whatever the word. -/
theorem witness_StepFollowsDecodeProcedure_idle (w : Word) :
    (sending w).rst = false ∧ (sending w).idle = true ∧ (sending w).cmd = [w] := ⟨rfl, rfl, rfl⟩

/-- Step 1 of R85, at both ends of each range. -/
theorem witness_StepFollowsDecodeProcedure_reserved : (0x0FFFFFFF : Word).toNat / 2 ^ 28 = 0x0 ∧
    (0xE0000000 : Word).toNat / 2 ^ 28 = 0xE ∧ (0xFFFFFFFF : Word).toNat / 2 ^ 28 = 0xF := by decide

/-- Step 2 of R85. -/
theorem witness_StepFollowsDecodeProcedure_must_be_zero :
    (⟨"LENH", .h, 0xB0000000, 0xFFFFFF00⟩ : OpcodeRow) ∈ opcodeTable ∧
      (0xB0000000 : Word).toNat / 2 ^ 28 = (0xB0000100 : Word).toNat / 2 ^ 28 ∧
      (0xB0000100 : Word) &&& 0xFFFFFF00 ≠ 0xB0000000 := by decide

/-- The row of the next two witnesses. -/
theorem witness_StepFollowsDecodeProcedure_row : (⟨"BENC", .r, 0x50000000, 0xF0FFFFFF⟩ : OpcodeRow) ∈ opcodeTable := by
  decide

/-- Step 3 of R85, at the values next to the legal range. -/
theorem witness_StepFollowsDecodeProcedure_rounds :
    ((0x50000000 : Word) &&& 0xF0FFFFFF = 0x50000000 ∧ (0x50000000 : Word).toNat / 2 ^ 24 % 2 ^ 4 < 1) ∧
    ((0x59000000 : Word) &&& 0xF0FFFFFF = 0x50000000 ∧ 8 < (0x59000000 : Word).toNat / 2 ^ 24 % 2 ^ 4) := by decide

/-- Step 4 of R85, at both ends of the legal range. -/
theorem witness_StepFollowsDecodeProcedure_executes :
    ((0x51000000 : Word) &&& 0xF0FFFFFF = 0x50000000 ∧ 1 ≤ (0x51000000 : Word).toNat / 2 ^ 24 % 2 ^ 4) ∧
    ((0x58000000 : Word) &&& 0xF0FFFFFF = 0x50000000 ∧ (0x58000000 : Word).toNat / 2 ^ 24 % 2 ^ 4 ≤ 8) := by decide

theorem witness_PseudoInstructionsLoadTheirValue : State.reset.halt = false ∧
    (BitVec.toNat (0x00FFFFFF : BitVec 32) < 2 ^ 24) ∧ ¬ (BitVec.toNat (0x01000000 : BitVec 32) < 2 ^ 24) := by decide

theorem witness_RotlIsCircularLeftRotation : (7 : Nat) < 8 ∧ (0 : Nat) < 8 := by decide

theorem witness_DecryptSubkeysAreEncryptSubkeysReversed : (7 : Nat) < (⟨8, by decide, by decide⟩ : RoundCount).val := by decide

theorem witness_RoundUndoneBySwappedRound : (Bytes.replicate 64 0x34, Bytes.replicate 64 0x7C) =
    roundHalves (Bytes.replicate 64 0x12) (Bytes.replicate 64 0x34) 0x5A := by decide

theorem witness_ThreeKeylessRoundsRestoreBlock : counting.halt = false ∧ counting.sk = 0x00 := ⟨rfl, rfl⟩

theorem witness_SwapCommandExchangesHalves : counting.halt = false := rfl

theorem witness_TransformIsInvertible : counting.halt = false := rfl

theorem witness_BlockCommandsArePrimitiveSequences : counting.halt = false := rfl

theorem witness_IllegalRoundCountsOnlyRaise : (BitVec.toNat (0 : BitVec 4) < 1) ∧ 8 < BitVec.toNat (9 : BitVec 4) ∧
    8 < BitVec.toNat (15 : BitVec 4) := by decide

theorem witness_BlockCountIsCeiling : (129 : Nat) ≤ 128 * 2 ∧ 0 < blockCount 1 ∧ 0 < blockCount 128 ∧ 0 < blockCount 129 ∧
    1 < blockCount 129 := by decide

theorem witness_PadAppendsZeros : (1 ≤ (rep 1 7).length ∧ (rep 1 7).length ≤ 128) ∧
    1 ≤ (rep 128 7).length ∧ (rep 128 7).length ≤ 128 := by decide +kernel

/-- The first clause on the zero block; the second at the last index and at the first. -/
theorem witness_StripLenIsPastLastNonzero :
    (∀ i : Fin 128, (pad []).get i = 0x00) ∧
    ((pad (rep 128 1)).get 127 ≠ 0x00 ∧ ∀ j : Fin 128, (127 : Fin 128) < j → (pad (rep 128 1)).get j = 0x00) ∧
    ((pad [1]).get 0 ≠ 0x00 ∧ ∀ j : Fin 128, (0 : Fin 128) < j → (pad [1]).get j = 0x00) := by decide

theorem witness_SencPushesEncryptedStream :
    ((stream 0 []).len.toNat ≤ (stream 0 []).din.length ∧ (stream 0 []).hasRoom (128 * blockCount 0) = true) ∧
    ({ stream 129 (rep 129 1) with doutRoom := some 256 } : State).len.toNat ≤ (rep 129 1).length ∧
    ({ stream 129 (rep 129 1) with doutRoom := some 256 } : State).hasRoom (128 * blockCount 129) = true := by decide +kernel

theorem witness_SdecPushesDecryptedStream :
    ((stream 0 []).len.toNat % 128 = 0 ∧ (stream 0 []).len.toNat ≤ (stream 0 []).din.length) ∧
    ((stream 128 (rep 128 1)).len.toNat % 128 = 0 ∧ (stream 128 (rep 128 1)).len.toNat ≤ (rep 128 1).length ∧
      ({ stream 128 (rep 128 1) with doutRoom := some 128 } : State).hasRoom 128 = true) := by decide +kernel

theorem witness_SdecFaultsOnShortBlock :
    ((stream 5 []).len.toNat % 128 ≠ 0 ∧ 128 * ((stream 5 []).len.toNat / 128) ≤ (stream 5 []).din.length ∧
      (stream 5 []).hasRoom (128 * ((stream 5 []).len.toNat / 128)) = true) ∧
    ((stream 129 (rep 128 1)).len.toNat % 128 ≠ 0 ∧ 128 * ((stream 129 (rep 128 1)).len.toNat / 128) ≤ (rep 128 1).length ∧
      ({ stream 129 (rep 128 1) with doutRoom := some 128 } : State).hasRoom (128 * (129 / 128)) = true) := by decide +kernel

theorem witness_EmptyStreamTouchesNothing : (stream 0 [0x55]).len = 0 := rfl

/-- Clauses 2 to 4: a full ciphertext block; two plaintexts that differ in block 1 only; two equal blocks of one
plaintext. -/
theorem witness_StreamLengthsAndBlockIndependence :
    (1 ≤ (rep 128 1).length ∧ (streamDec (rep 128 1) 0x96 ⟨1, by decide, by decide⟩).isSome = true) ∧
    ((rep 130 1).length = (rep 128 1 ++ rep 2 9).length ∧ chunk (rep 130 1) 0 = chunk (rep 128 1 ++ rep 2 9) 0) ∧
    (0 < blockCount (rep 256 1).length ∧ 1 < blockCount (rep 256 1).length ∧
      pad (chunk (rep 256 1) 0) = pad (chunk (rep 256 1) 1)) := by decide +kernel

/-- The third clause's premise for all indices. -/
theorem witness_StreamLengthsAndBlockIndependence_blocks :
    ∀ i, i ≠ 1 → chunk (rep 130 1) i = chunk (rep 128 1 ++ rep 2 9) i := by
  intro i h
  rcases i with _ | _ | i
  · decide +kernel
  · exact absurd rfl h
  · have hz : ∀ n, n ≤ 130 → avail n (i + 1 + 1) = 0 := by intro n hn; unfold avail; omega
    rw [chunk, chunk, hz _ (by decide +kernel), hz _ (by decide +kernel)]
    rfl

theorem witness_StreamIgnoresEarlierBlockAndSubkey :
    (∃ t, exec (.senc 1) (stream 1 [1]) = .next t) ∧
    (∃ t, exec (.senc 1) { stream 1 [1] with blk := pad [1], sk := 7 } = .next t) ∧
    (∃ t, exec (.sdec 1) (stream 5 [1]) = .next t) ∧
    ∃ t, exec (.sdec 1) { stream 5 [1] with blk := pad [1], sk := 7 } = .next t := ⟨⟨_, rfl⟩, ⟨_, rfl⟩, ⟨_, rfl⟩, ⟨_, rfl⟩⟩

theorem witness_LdblkLoadsInAscendingOrder : 128 ≤ (offered (upFrom 0 128)).din.length := by decide +kernel

theorem witness_StblkPushesInAscendingOrder : ({ counting with doutRoom := some 128 } : State).hasRoom 128 = true := by decide

theorem witness_StskPushesSubkey : ({ State.reset with doutRoom := some 1 } : State).hasRoom 1 = true := by decide

theorem witness_LdblkWaitsForInput : (offered []).din.length < 128 ∧ (offered (upFrom 0 127)).din.length < 128 := by decide +kernel

theorem witness_StoresWaitForHost : ({ State.reset with doutRoom := some 0 } : State).doutRoom = some 0 ∧
    ({ State.reset with doutRoom := some 127 } : State).doutRoom = some 127 ∧ 127 < 128 := by decide

/-- In the first block, and in the second with no byte of it offered. -/
theorem witness_SencWaitsBetweenBlocksInOrder :
    ((stream 1 []).din.length < (stream 1 []).len.toNat ∧
      (stream 1 []).hasRoom (128 * ((stream 1 []).din.length / 128)) = true) ∧
    (rep 128 1).length < (stream 129 (rep 128 1)).len.toNat ∧
      ({ stream 129 (rep 128 1) with doutRoom := some 128 } : State).hasRoom (128 * ((rep 128 1).length / 128)) = true := by
  decide +kernel

/-- Nothing accepted, one block accepted, and all but one byte accepted; and with the input short as well. -/
theorem witness_SencHoldsInputWhileOutputWaits : (∀ k ∈ [0, 128, 255],
    ({ stream 129 (rep 129 1) with doutRoom := some k } : State).doutRoom = some k ∧
      k < 128 * blockCount (stream 129 []).len.toNat ∧
      min (stream 129 []).len.toNat (128 * (k / 128 + 1)) ≤ (rep 129 1).length) ∧
    127 < 128 * blockCount (stream 129 []).len.toNat ∧
      min (stream 129 []).len.toNat (128 * (127 / 128 + 1)) ≤ (rep 128 1).length := by decide +kernel

/-- In the first block with nothing offered, and in the second with all but its last byte offered. -/
theorem witness_SdecWaitsBetweenBlocksInOrder : ∀ d ∈ [0, 255],
    (stream 257 (rep d 1)).din.length < 128 * ((stream 257 (rep d 1)).len.toNat / 128) ∧
      ({ stream 257 (rep d 1) with doutRoom := some 128 } : State).hasRoom (128 * ((rep d 1).length / 128)) = true := by
  decide +kernel

/-- The first of two blocks, at its last byte; and the last block, of which `benc 1`'s inverse leaves one byte
(42_blockcipher.md R154: `pL = cl ^ cr ^ 0x2D`, so one byte 0x2C in a block of 0x2D and 0x00 gives the byte 0x01), with
none accepted. -/
theorem witness_SdecHoldsInputWhileOutputWaits :
    (128 * (127 / 128 + 1) ≤ (stream 256 []).len.toNat ∧ 128 * (127 / 128 + 1) ≤ (rep 128 1).length ∧
      ¬ 127 / 128 + 1 = blockCount (stream 256 []).len.toNat ∧ 127 % 128 < 128) ∧
    (128 * (0 / 128 + 1) ≤ (stream 128 []).len.toNat ∧ 128 * (0 / 128 + 1) ≤ ([0x2C] ++ rep 63 0x2D ++ rep 64 0).length ∧
      0 / 128 + 1 = blockCount (stream 128 []).len.toNat ∧
      0 % 128 < stripLen (blockOf (([0x2C] ++ rep 63 0x2D ++ rep 64 0).take (stream 128 []).len.toNat) 0x96
        ⟨1, by decide, by decide⟩ .decrypt (0 / 128)) ∧
      stripLen (blockOf ([0x2C] ++ rep 63 0x2D ++ rep 64 0) 0x96 ⟨1, by decide, by decide⟩ .decrypt 0) = 1) := by
  decide +kernel

theorem witness_SlowHostGetsTheSameResult : State.reset.rst = false ∧ State.reset.halt = false ∧
    ∃ t, exec .ldblk State.reset = .next t ∧ t.busy = true := ⟨rfl, rfl, _, rfl, rfl⟩

theorem loading_inv : Inv loading := by
  refine ⟨by decide, by decide, by decide, by decide, by decide, ?_, by decide⟩
  intro p h
  cases h
  decide

/-- The same wait with its port served: the other side of the equivalence. -/
theorem loading_served_inv : Inv { loading with din := rep 128 1 } := by
  refine ⟨by decide, by decide, by decide, by decide, by decide, ?_, by decide⟩
  intro p h
  cases h
  decide

theorem witness_WaitLastsWhilePortIsBlocked :
    (loading.rst = false ∧ loading.busy = true ∧ blocked loading = true) ∧
    blocked { loading with din := rep 128 1 } = false := by decide

theorem witness_CommandsTerminateWhenServed :
    State.reset.doutRoom = none ∧ 128 ≤ (offered (rep 128 1)).din.length ∧
      (offered (rep 128 1)).len.toNat ≤ (offered (rep 128 1)).din.length ∧
    ({ loading with din := rep 128 1 } : State).busy = true ∧ ({ loading with din := rep 128 1 } : State).doutRoom = none := by
  decide +kernel

theorem witness_CommandsKeepToTheAccessMatrix : (∃ t, exec .nop State.reset = .next t) ∧
    (∃ t, exec (.benc 1) State.reset = .next t) ∧ ∃ t, exec .ldblk State.reset = .next t := ⟨⟨_, rfl⟩, ⟨_, rfl⟩, ⟨_, rfl⟩⟩

/-- Ready with a word; ready without; not ready. -/
theorem witness_WordsAcceptedInOrderWhenReady :
    (∃ t, step (sending 0x10000000) = .next t) ∧ cmdReady (sending 0x10000000) = true ∧
    (∃ t, step State.reset = .next t) ∧ State.reset.cmd = [] ∧
    (∃ t, step { loading with cmd := [0x10000000] } = .next t) ∧ cmdReady { loading with cmd := [0x10000000] } = false :=
  ⟨⟨_, rfl⟩, rfl, ⟨_, rfl⟩, rfl, ⟨_, rfl⟩, rfl⟩

theorem witness_TransfersAreFinal : ∃ t, step { loading with din := [1] } = .next t := ⟨_, rfl⟩

theorem witness_HostMovesChangeNoRegister : Inv loading := loading_inv

theorem witness_StatusWiresShowRegistersWhenNotBusy : State.reset.busy = false ∧ loading.busy = true := ⟨rfl, rfl⟩

theorem witness_StepRunsTheDecodedCommand : (sending 0x51000000).rst = false ∧ (sending 0x51000000).idle = true ∧
    (sending 0x51000000).cmd = [0x51000000] ∧ decode 0x51000000 = .ok (.benc 1) := by decide

theorem witness_FaultEntryHaltsUntilReset : halted.halt = true ∧ halted.rst = false := ⟨rfl, rfl⟩

theorem idle_inv (ws : List Word) (bs : List Byte) (n : BitVec 32) :
    Inv { State.reset with cmd := ws, din := bs, len := n } := by
  refine ⟨rfl, rfl, by simp [State.reset], by simp [State.reset], by simp [State.reset], ?_,
    by simp [faultOk, State.reset]⟩
  intro p h
  cases h

/-- Each of the three faults: 1 at an illegal word, 2 at an illegal count, 3 at SDEC with `LEN = 5`. -/
theorem witness_FaultsOnlyWhereTheTableSays :
    (∃ t, step { State.reset with cmd := [0], din := [], len := 0 } = .next t ∧ t.halt = true ∧ t.err = 1) ∧
    (∃ t, step { State.reset with cmd := [0x50000000], din := [], len := 0 } = .next t ∧ t.halt = true ∧ t.err = 2) ∧
    ∃ t, step { State.reset with cmd := [0xD1000000], din := [], len := 5 } = .next t ∧ t.halt = true ∧ t.err = 3 :=
  ⟨⟨_, rfl, rfl, rfl⟩, ⟨_, rfl, rfl, rfl⟩, ⟨_, rfl, rfl, rfl⟩⟩

/-- Fault 3 in a command in progress: SDEC with `LEN = 129` waits for the last byte of block 0, and gets it. -/
def sdecWaiting : State :=
  { stream 129 [1] with busy := true, blkCnt := 2, blkIdx := 0, cur := some ⟨.sdec 1, .reading, 127, 0⟩ }

theorem sdecWaiting_inv : Inv sdecWaiting := by
  refine ⟨by decide, by decide, by decide, by decide, by decide, ?_, by decide⟩
  intro p h
  cases h
  decide

theorem witness_FaultsOnlyWhereTheTableSays_in_progress : sdecWaiting.rst = false ∧ sdecWaiting.halt = false ∧
    (stepped sdecWaiting).map (fun t => (t.halt, t.err, t.errInfo)) = some (true, 3, 1) := by decide

theorem witness_ResetEdgeZeroesEngine : ({ loading with rst := true } : State).rst = true := rfl

theorem witness_StepKeepsInvariant : Inv loading ∧ ∃ t, step loading = .next t := ⟨loading_inv, _, rfl⟩

end Sys2Proof.Tests
end

section
/-! SUPPORT. What holds where a piece of a command's pseudocode goes on, and what holds where it stops: one rule for
each shared operation, used by every proof about whole commands. -/

namespace Sys2Proof.Machine

/-- Where the pseudocode goes on `P` holds of its state, and where it stops `Q` does. -/
def Flow.Sat (P Q : State → Prop) : Flow → Prop
  | .goOn s => P s
  | .stop s => Q s

theorem Flow.Sat.andThen {P P' Q : State → Prop} {f : Flow} {k : State → Flow} (hf : f.Sat P Q)
    (hk : ∀ s, P s → (k s).Sat P' Q) : (f.andThen k).Sat P' Q := by
  cases f with
  | goOn s => exact hk s hf
  | stop s => exact hf

theorem Flow.Sat.close {P Q : State → Prop} {f : Flow} (hf : f.Sat P Q) (hc : ∀ s, P s → Q (complete s)) :
    Q f.close := by
  cases f with
  | goOn s => exact hc s hf
  | stop s => exact hf

/-- The reading loop either fills all its cells, or takes every byte offered and waits for the next. -/
theorem loadBytes_sat {P Q : State → Prop} (p : Nat → Progress) (k j : Nat) (s : State)
    (hgo : P { s with blk := setCells s.blk j (s.din.take k), din := s.din.drop k })
    (hstop : s.din.length < k →
      Q (waitAt (p (j + s.din.length)) { s with blk := setCells s.blk j s.din, din := [] })) :
    (loadBytes p k j s).Sat P Q := by
  rcases Nat.lt_or_ge s.din.length k with h | h
  · rw [loadBytes_short _ _ _ _ h]; exact hstop h
  · rw [loadBytes_enough _ _ _ _ h]; exact hgo

/-- The writing loop either pushes all its bytes, or pushes the first `m` of them and waits to push the next. -/
theorem emitBytes_sat {P Q : State → Prop} (p : Nat → Progress) (bs : List Byte) (j : Nat) (s : State)
    (hgo : P { s with dout := s.dout ++ bs, doutRoom := s.roomAfter bs.length })
    (hstop : ∀ m, m < bs.length →
      Q (waitAt (p (j + m)) { s with dout := s.dout ++ bs.take m, doutRoom := some 0 })) :
    (emitBytes p bs j s).Sat P Q := by
  rcases hr : s.doutRoom with _ | m
  · rw [emitBytes_room _ _ _ _ (hasRoom_none _ hr)]; exact hgo
  · rcases Nat.lt_or_ge m bs.length with h | h
    · rw [emitBytes_full _ _ _ _ _ hr h]; exact hstop m h
    · rw [emitBytes_room _ _ _ _ (by simp [State.hasRoom, hr, h])]; exact hgo

/-- The same for bytes of BLK: it waits only at a cell it has still to push. -/
theorem emitBlk_sat {P Q : State → Prop} (p : Nat → Progress) (n j : Nat) (s : State)
    (hgo : P { s with
      dout := s.dout ++ (s.blk.list.take n).drop j,
      doutRoom := s.roomAfter ((s.blk.list.take n).drop j).length })
    (hstop : ∀ m, j + m < min n 128 → Q (waitAt (p (j + m)) { s with
      dout := s.dout ++ ((s.blk.list.take n).drop j).take m, doutRoom := some 0 })) :
    (emitBlk p n j s).Sat P Q := by
  refine emitBytes_sat p _ j s hgo fun m hm => hstop m ?_
  rw [List.length_drop, List.length_take, s.blk.size] at hm
  omega

/-- What holds after the round check: it holds after ROUNDS_RANGE and after the body with a legal count. -/
theorem withRounds_sat {P : State → Prop} {r : BitVec 4} {i : Instr} {s : State} {body : RoundCount → State}
    (hraise : legalRounds r = false → P (raise .roundsRange (encode i) s))
    (hbody : ∀ rc, legalRounds r = true → P (body rc)) : P (withRounds r i s body) := by
  rcases rounds_cases r with ⟨rc, rfl⟩ | h
  · rw [withRounds_legal]
    refine hbody rc ((legalRounds_iff _).2 ?_)
    have := rc.min
    have := rc.max
    rw [BitVec.toNat_ofNat]; omega
  · rw [withRounds_illegal _ _ _ _ h]
    refine hraise ?_
    rw [← Bool.not_eq_true, legalRounds_iff]; omega

end Sys2Proof.Machine
end

section
/-! SUPPORT. The decoder on the encoder's words: each format's must-be-zero fields are zero there (30_encoding.md R82,
R84), so step 2 of R85 gives the command back. -/

namespace Sys2Proof

theorem spell_formatN (op : BitVec 4) (n : BitVec 24) (i : Instr) : spell (fieldsWord op 0#4 n) .n i = .ok i :=
  if_pos <| (maskN_iff _).2 <| by rw [toNat_fieldsWord]; simp; omega

theorem spell_formatH (op : BitVec 4) (h : BitVec 8) (i : Instr) :
    spell (fieldsWord op 0#4 (h.setWidth 24)) .h i = .ok i :=
  if_pos <| (maskH_iff _).2 <| by rw [toNat_fieldsWord]; simp; omega

theorem spell_formatR (op r : BitVec 4) (i : Instr) : spell (fieldsWord op r 0#24) .r i = .ok i :=
  if_pos <| (maskR_iff _).2 <| by rw [toNat_fieldsWord]; simp; omega

theorem decode_encode (i : Instr) : decode (encode i) = .ok i := by
  cases i with
  | nop | round | swap | ldblk | stblk | stsk => decide
  | kgen n | lenl n => simp [decode, encode, spell_formatN]
  | lenh h => simp [decode, encode, spell_formatH]
  | benc r | bdec r | senc r | sdec r => simp [decode, encode, spell_formatR]

end Sys2Proof
end

section
/-! CLAIMS of 10_state.md, the access matrix (R36): a relation between states that is kept operation by operation. -/

namespace Sys2Proof.Machine

/-- `t` differs from `s` only as a command of the access row `a` may make it differ (10_state.md R36). -/
structure Frame (a : AccessRow) (s t : State) : Prop where
  blk : a.blk = false → t.blk = s.blk
  sk : a.sk = false → t.sk = s.sk
  len : a.len = false → t.len = s.len
  counters : a.counters = false → t.blkCnt = s.blkCnt ∧ t.blkIdx = s.blkIdx
  din : a.din = false → t.din = s.din
  dout : a.dout = false → t.dout = s.dout ∧ t.doutRoom = s.doutRoom
  fault : a.mayFault = false → t.err = s.err ∧ t.errInfo = s.errInfo ∧ t.halt = s.halt
  dinSuffix : t.din <:+ s.din
  doutPrefix : s.dout <+: t.dout
  cmd : t.cmd = s.cmd
  rst : t.rst = s.rst
  accepted : t.accepted = s.accepted
  key : t.key = s.key

namespace Frame

variable {a : AccessRow} {s t u : State}

theorem refl (a : AccessRow) (s : State) : Frame a s s where
  blk _ := rfl
  sk _ := rfl
  len _ := rfl
  counters _ := ⟨rfl, rfl⟩
  din _ := rfl
  dout _ := ⟨rfl, rfl⟩
  fault _ := ⟨rfl, rfl, rfl⟩
  dinSuffix := List.suffix_rfl
  doutPrefix := List.prefix_rfl
  cmd := rfl
  rst := rfl
  accepted := rfl
  key := rfl

theorem trans (h : Frame a s t) (g : Frame a t u) : Frame a s u where
  blk ha := (g.blk ha).trans (h.blk ha)
  sk ha := (g.sk ha).trans (h.sk ha)
  len ha := (g.len ha).trans (h.len ha)
  counters ha := by simp [g.counters ha, h.counters ha]
  din ha := (g.din ha).trans (h.din ha)
  dout ha := by simp [g.dout ha, h.dout ha]
  fault ha := by simp [g.fault ha, h.fault ha]
  dinSuffix := g.dinSuffix.trans h.dinSuffix
  doutPrefix := h.doutPrefix.trans g.doutPrefix
  cmd := g.cmd.trans h.cmd
  rst := g.rst.trans h.rst
  accepted := g.accepted.trans h.accepted
  key := g.key.trans h.key

/-! What each shared operation needs of the row. -/

theorem complete (h : Frame a s t) : Frame a s (complete t) := h.trans { refl a t with }

theorem waitAt (p : Progress) (h : Frame a s t) : Frame a s (waitAt p t) := h.trans { refl a t with }

theorem raise (ha : a.mayFault = true) (f : FaultKind) (info : BitVec 32) : Frame a s (raise f info s) :=
  { refl a s with fault := by simp [ha] }

theorem setBlk (ha : a.blk = true) (b : Block) : Frame a s { s with blk := b } :=
  { refl a s with blk := by simp [ha] }

theorem setSubkey (ha : a.sk = true) (v : Byte) : Frame a s (setSubkey v s) :=
  { refl a s with sk := by simp [ha] }

theorem setLen (ha : a.len = true) (n : BitVec 32) : Frame a s { s with len := n } :=
  { refl a s with len := by simp [ha] }

theorem setCounters (ha : a.counters = true) (c i : BitVec 26) : Frame a s { s with blkCnt := c, blkIdx := i } :=
  { refl a s with counters := by simp [ha] }

theorem pop (ha : a.din = true) {d : List Byte} (hd : d <:+ s.din) : Frame a s { s with din := d } :=
  { refl a s with din := by simp [ha], dinSuffix := hd }

theorem push (ha : a.dout = true) (bs : List Byte) (n : Option Nat) :
    Frame a s { s with dout := s.dout ++ bs, doutRoom := n } :=
  { refl a s with dout := by simp [ha], doutPrefix := List.prefix_append _ _ }

theorem blockTransform (hb : a.blk = true) (hk : a.sk = true) (dir : Direction) (r : RoundCount) :
    Frame a s (blockTransform dir r s) := by
  rw [blockTransform_eq]
  exact { refl a s with blk := by simp [hb], sk := by simp [hk] }

/-- Wherever the pseudocode `f` ends, it has kept to the row since the state `s`. -/
abbrev Along (a : AccessRow) (s : State) (f : Flow) : Prop := f.Sat (Frame a s) (Frame a s)

theorem loadBytes (hb : a.blk = true) (hd : a.din = true) (p : Nat → Progress) (k j : Nat) (h : Frame a s t) :
    Along a s (loadBytes p k j t) :=
  loadBytes_sat p k j t (h.trans ((setBlk hb _).trans (pop hd (List.drop_suffix _ _)))) fun _ =>
    (h.trans ((setBlk hb _).trans (pop hd (List.nil_suffix)))).waitAt _

theorem emitBytes (ha : a.dout = true) (p : Nat → Progress) (bs : List Byte) (j : Nat) (h : Frame a s t) :
    Along a s (emitBytes p bs j t) :=
  emitBytes_sat p bs j t (h.trans (push ha _ _)) fun _ _ => (h.trans (push ha _ _)).waitAt _

theorem close {f : Flow} (h : Along a s f) : Frame a s f.close :=
  Flow.Sat.close h fun _ => complete

theorem withRounds (ha : a.mayFault = true) {r : BitVec 4} {i : Instr} {body : RoundCount → State}
    (h : ∀ rc, Frame a s (body rc)) : Frame a s (withRounds r i s body) :=
  withRounds_sat (fun _ => raise ha _ _) fun rc _ => h rc

end Frame

/-! ### The two stream commands, block by block -/

section
variable {r : BitVec 4} {i : Instr} {rc : RoundCount} {s t : State}

theorem nextBlock_frame (h : Frame (accessRow (.senc r)) s t) :
    Frame.Along (accessRow (.senc r)) s (nextBlock t) :=
  h.trans (.setCounters rfl _ _)

theorem sencWrite_frame (j : Nat) (h : Frame (accessRow (.senc r)) s t) :
    Frame.Along (accessRow (.senc r)) s (sencWrite i j t) :=
  (Frame.emitBytes rfl _ _ _ h).andThen fun _ => nextBlock_frame

theorem sencRead_frame (h : Frame (accessRow (.senc r)) s t) :
    Frame.Along (accessRow (.senc r)) s (sencRead i rc 0 t) :=
  (Frame.loadBytes rfl rfl _ _ _ h).andThen fun _ hu =>
    sencWrite_frame 0 (hu.trans ((Frame.setBlk rfl _).trans (.blockTransform rfl rfl _ _)))

theorem sencLoop_frame (k : Nat) (h : Frame (accessRow (.senc r)) s t) :
    Frame.Along (accessRow (.senc r)) s (sencLoop i rc k t) := by
  induction k generalizing t with
  | zero => exact h
  | succ k ih => exact (sencRead_frame h).andThen fun _ => ih

theorem sdecBody_frame (h : Frame (accessRow (.sdec r)) s t) :
    Frame.Along (accessRow (.sdec r)) s (sdecBody i rc t) := by
  unfold sdecBody
  split
  · exact h.trans (.raise rfl _ _)
  · exact (Frame.loadBytes rfl rfl _ _ _ h).andThen fun _ hu =>
      (Frame.emitBytes rfl _ _ _ (hu.trans (.blockTransform rfl rfl _ _))).andThen fun _ => nextBlock_frame (r := r)

theorem sdecLoop_frame (k : Nat) (h : Frame (accessRow (.sdec r)) s t) :
    Frame.Along (accessRow (.sdec r)) s (sdecLoop i rc k t) := by
  induction k generalizing t with
  | zero => exact h
  | succ k ih => exact (sdecBody_frame h).andThen fun _ => ih

end

/-- The whole access matrix: each command keeps to its own row. -/
theorem exec_frame (i : Instr) {s t : State} (h : exec i s = .next t) : Frame (accessRow i) s t := by
  cases i with
  | nop => cases h; exact (Frame.refl _ s).complete
  | kgen n => cases h; exact (Frame.setSubkey rfl _).complete
  | round => cases h; exact (Frame.setBlk rfl _).complete
  | swap => cases h; exact (Frame.setBlk rfl _).complete
  | benc r => cases h; exact .withRounds rfl fun _ => (Frame.blockTransform rfl rfl _ _).complete
  | bdec r => cases h; exact .withRounds rfl fun _ => (Frame.blockTransform rfl rfl _ _).complete
  | ldblk => cases h; exact .close (Frame.loadBytes rfl rfl _ _ _ (.refl _ s))
  | stblk => cases h; exact .close (Frame.emitBytes rfl _ _ _ (.refl _ s))
  | stsk => cases h; exact .close (Frame.emitBytes rfl _ _ _ (.refl _ s))
  | lenl n => cases h; exact (Frame.setLen rfl _).complete
  | lenh b => cases h; exact (Frame.setLen rfl _).complete
  | senc r => cases h; exact .withRounds rfl fun _ => .close (sencLoop_frame _ (.setCounters rfl _ _))
  | sdec r => cases h; exact .withRounds rfl fun _ => .close (sdecLoop_frame _ (.setCounters rfl _ _))

/-- Settles O48: the command's row of the access matrix, field by field. -/
theorem commandsKeepToTheAccessMatrix : Obligations.CommandsKeepToTheAccessMatrix := by
  intro i s t h
  have f := exec_frame i h
  exact ⟨f.blk, f.sk, f.len, f.counters, f.din, f.dout, f.fault, f.dinSuffix, f.doutPrefix, f.cmd, f.rst, f.accepted,
    f.key⟩

end Sys2Proof.Machine
end

section
/-! CLAIMS of 10_state.md, the invariant (R26 to R32): what it says inside a command, and that every way a command can
leave the engine restores it. -/

namespace Sys2Proof.Machine

/-- What `Inv` says of the registers while a command runs: no fault on record, and the counters bounded. BUSY and the
micro-state are left out, since they are settled only where the command completes, waits or faults. -/
def Running (s : State) : Prop :=
  s.halt = false ∧ s.err = 0 ∧ s.errInfo = 0 ∧ s.blkIdx.toNat ≤ s.blkCnt.toNat ∧ s.blkCnt.toNat ≤ 2 ^ 25

/-- A stream command runs in `s`, with at least `k` of its blocks left (43_stream.md R175, R176). -/
def Streaming (k : Nat) (s : State) : Prop :=
  Running s ∧ s.blkCnt.toNat = blockCount s.len.toNat ∧ s.blkIdx.toNat + k ≤ s.blkCnt.toNat

theorem running_of_inv {s : State} (h : Inv s) (hh : s.halt = false) : Running s := by
  have herr : s.err = 0 := by simpa [hh] using h.haltIffErr
  have hinfo : s.errInfo = 0 := by simpa [faultOk, herr] using h.fault
  exact ⟨hh, herr, hinfo, h.idxLeCnt, h.cntBound⟩

theorem Running.setLen {s : State} (h : Running s) (n : BitVec 32) : Running { s with len := n } := h

/-! How a command may leave the engine: completed, waiting, or halted. -/

theorem Running.inv_complete {s : State} (h : Running s) : Inv (complete s) := by
  obtain ⟨hh, herr, hinfo, hidx, hcnt⟩ := h
  exact ⟨rfl, by simp, by simp [hh, herr], hidx, hcnt, by simp, by simp [faultOk, herr, hinfo]⟩

theorem Running.inv_waitAt {s : State} {p : Progress} (h : Running s) (hp : progressOk p s = true) :
    Inv (waitAt p s) := by
  obtain ⟨hh, herr, hinfo, hidx, hcnt⟩ := h
  refine ⟨rfl, by simp [hh], by simp [hh, herr], hidx, hcnt, ?_, by simp [faultOk, herr, hinfo]⟩
  rintro _ ⟨⟩
  exact hp

theorem Running.inv_raise {s : State} {f : FaultKind} {info : BitVec 32} (h : Running s)
    (hf : faultOk (raise f info s) = true) : Inv (raise f info s) := by
  obtain ⟨-, -, -, hidx, hcnt⟩ := h
  exact ⟨rfl, rfl, by cases f <;> rfl, hidx, hcnt, by simp, hf⟩

/-! ERRINFO after each of the three faults (60_exceptions.md R221 to R223). -/

theorem faultOk_illegalCmd {w : Word} {e : IllegalWord} (s : State) (h : decode w = .error e) :
    faultOk (raise .illegalCmd w s) = true := by
  simp [faultOk, FaultKind.code, h]

theorem faultOk_roundsRange {i : Instr} (s : State) (hi : i.wellFormed = false) :
    faultOk (raise .roundsRange (encode i) s) = true := by
  simp [faultOk, FaultKind.code, decode_encode, hi]

theorem faultOk_format {s : State} (h : Streaming 1 s) (ha : availNow s < 128) :
    faultOk (raise .format (BitVec.ofNat 32 (availNow s)) s) = true := by
  obtain ⟨-, hcnt, hleft⟩ := h
  have hmod : availNow s = s.len.toNat % 128 ∧ availNow s ≠ 0 ∧ s.blkIdx.toNat = s.len.toNat / 128 ∧
      s.blkCnt.toNat = s.len.toNat / 128 + 1 := by
    unfold availNow avail at *; unfold blockCount at hcnt; omega
  obtain ⟨hav, hpos, hidx, hcnt'⟩ := hmod
  have hinfo : (BitVec.ofNat 32 (availNow s)).toNat = s.len.toNat % 128 := by rw [BitVec.toNat_ofNat]; omega
  have hne : BitVec.ofNat 32 (availNow s) ≠ 0 := by
    intro h0
    rw [h0] at hinfo
    exact hpos (hav.trans hinfo.symm)
  simp only [faultOk, raise_err, raise_errInfo, raise_len, raise_blkIdx, raise_blkCnt, hinfo, hidx, hcnt']
  simpa [FaultKind.code] using hne

/-- The round check keeps the invariant where the body with a legal count does. -/
theorem Running.inv_withRounds {r : BitVec 4} {i : Instr} {s : State} {body : RoundCount → State} (h : Running s)
    (hi : i.wellFormed = legalRounds r)
    (hbody : ∀ rc, legalRounds r = true → Inv (body rc)) : Inv (withRounds r i s body) :=
  withRounds_sat (fun hr => h.inv_raise (faultOk_roundsRange s (hi.trans hr))) hbody

/-! The micro-states that R32 gives each command, as conditions on its parts. -/

theorem progressOk_ldblk (ph : Phase) (j n : Nat) (s : State) :
    progressOk ⟨.ldblk, ph, j, n⟩ s = true ↔ ph = .reading ∧ j < 128 ∧ n = 0 := by
  simp [progressOk, and_assoc]

theorem progressOk_stblk (ph : Phase) (j n : Nat) (s : State) :
    progressOk ⟨.stblk, ph, j, n⟩ s = true ↔ ph = .writing ∧ j < 128 ∧ n = 0 := by
  simp [progressOk, and_assoc]

theorem progressOk_senc {r : BitVec 4} {ph : Phase} {j n : Nat} {s : State} (h : Running s) :
    progressOk ⟨.senc r, ph, j, n⟩ s = true ↔ legalRounds r = true ∧ Streaming 1 s ∧ n = 0 ∧
      (ph = .reading ∧ j < availNow s ∨ ph = .writing ∧ j < 128) := by
  cases ph <;> simp [progressOk, Streaming, h, and_assoc]

theorem progressOk_sdec {r : BitVec 4} {ph : Phase} {j n : Nat} {s : State} (h : Running s) :
    progressOk ⟨.sdec r, ph, j, n⟩ s = true ↔ legalRounds r = true ∧ Streaming 1 s ∧ availNow s = 128 ∧
      (ph = .reading ∧ j < 128 ∧ n = 0 ∨ ph = .writing ∧ j < n ∧ n = pushLen s) := by
  cases ph <;> simp [progressOk, Streaming, h, and_assoc]

/-! ### Each loop of R175, R176, R201 to R203 keeps the invariant, from any point a command can resume it at -/

theorem ldblkFrom_sat {j : Nat} {s : State} (h : Running s) : (ldblkFrom j s).Sat Running Inv :=
  loadBytes_sat _ _ _ _ h fun hd => Running.inv_waitAt h ((progressOk_ldblk _ _ _ _).2 ⟨rfl, by omega, rfl⟩)

theorem stblkFrom_sat {j : Nat} {s : State} (h : Running s) : (stblkFrom j s).Sat Running Inv :=
  emitBlk_sat _ _ _ _ h fun m hm => Running.inv_waitAt h ((progressOk_stblk _ _ _ _).2 ⟨rfl, by omega, rfl⟩)

theorem stskPush_sat {s : State} (h : Running s) : (stskPush s).Sat Running Inv :=
  emitBytes_sat _ _ _ _ h fun m hm => by
    obtain rfl : m = 0 := Nat.lt_one_iff.1 hm
    exact Running.inv_waitAt h rfl

theorem nextBlock_sat {k : Nat} {s : State} (h : Streaming (k + 1) s) : (nextBlock s).Sat (Streaming k) Inv := by
  obtain ⟨⟨hh, herr, hinfo, hidx, hcnt⟩, hlen, hleft⟩ := h
  have hnext : (s.blkIdx + 1).toNat = s.blkIdx.toNat + 1 := by
    rw [BitVec.toNat_add]
    exact Nat.mod_eq_of_lt (by simp; omega)
  refine ⟨⟨hh, herr, hinfo, ?_, hcnt⟩, hlen, ?_⟩
  · simp only [hnext]; omega
  · simp only [hnext]; omega

theorem Streaming.mono {j k : Nat} {s : State} (h : Streaming k s) (hj : j ≤ k) : Streaming j s := by
  obtain ⟨hrun, hcnt, hleft⟩ := h
  exact ⟨hrun, hcnt, by omega⟩

theorem Streaming.blockTransform {k : Nat} {s : State} (h : Streaming k s) (dir : Direction) (rc : RoundCount) :
    Streaming k (blockTransform dir rc s) := by
  rw [blockTransform_eq]; exact h

theorem streaming_startStream {s : State} (h : Running s) : Streaming 0 (startStream s) := by
  obtain ⟨hh, herr, hinfo, -, -⟩ := h
  have hcnt := toNat_startStream_blkCnt s
  exact ⟨⟨hh, herr, hinfo, by simp, hcnt ▸ blockCount_le _⟩, hcnt, by simp⟩

theorem streaming_blocksLeft {s : State} (h : Streaming 0 s) : Streaming (blocksLeft s) s := by
  obtain ⟨hrun, hcnt, hleft⟩ := h
  exact ⟨hrun, hcnt, by unfold blocksLeft; omega⟩

section
variable {r : BitVec 4} {rc : RoundCount} {j k : Nat} {s : State} (hr : legalRounds r = true)
include hr

theorem sencWrite_sat (h : Streaming (k + 1) s) : (sencWrite (.senc r) j s).Sat (Streaming k) Inv := by
  refine Flow.Sat.andThen (P := Streaming (k + 1)) (emitBlk_sat _ _ _ _ h fun m hm => ?_) fun _ => nextBlock_sat
  exact Running.inv_waitAt h.1 ((progressOk_senc h.1).2 ⟨hr, h.mono (by omega), rfl, .inr ⟨rfl, by omega⟩⟩)

theorem sencRead_sat (h : Streaming (k + 1) s) : (sencRead (.senc r) rc j s).Sat (Streaming k) Inv := by
  refine Flow.Sat.andThen (P := Streaming (k + 1)) (loadBytes_sat _ _ _ _ h fun hd => ?_) fun t ht =>
    sencWrite_sat hr (Streaming.blockTransform (s := { t with blk := zeroFrom (availNow t) t.blk }) ht _ _)
  have hj : j + s.din.length < availNow s := by omega
  exact Running.inv_waitAt h.1 ((progressOk_senc h.1).2 ⟨hr, h.mono (by omega), rfl, .inl ⟨rfl, hj⟩⟩)

theorem sencLoop_sat (h : Streaming k s) : (sencLoop (.senc r) rc k s).Sat (Streaming 0) Inv := by
  induction k generalizing s with
  | zero => exact h
  | succ k ih => exact (sencRead_sat hr h).andThen fun _ => ih

theorem sencRun_sat (h : Streaming 0 s) : (sencRun (.senc r) rc s).Sat (Streaming 0) Inv :=
  sencLoop_sat hr (streaming_blocksLeft h)

theorem sdecWrite_sat (h : Streaming (k + 1) s) (ha : availNow s = 128) :
    (sdecWrite (.sdec r) (pushLen s) j s).Sat (Streaming k) Inv := by
  refine Flow.Sat.andThen (P := Streaming (k + 1)) (emitBlk_sat _ _ _ _ h fun m hm => ?_) fun _ => nextBlock_sat
  exact Running.inv_waitAt h.1
    ((progressOk_sdec h.1).2 ⟨hr, h.mono (by omega), ha, .inr ⟨rfl, by omega, rfl⟩⟩)

theorem sdecRead_sat (h : Streaming (k + 1) s) (ha : availNow s = 128) :
    (sdecRead (.sdec r) rc j s).Sat (Streaming k) Inv := by
  refine Flow.Sat.andThen (P := fun t => Streaming (k + 1) t ∧ availNow t = 128)
    (loadBytes_sat _ _ _ _ ⟨h, ha⟩ fun hd => ?_) fun t ht =>
      sdecWrite_sat hr (ht.1.blockTransform _ _) (by rw [blockTransform_eq]; exact ht.2)
  exact Running.inv_waitAt h.1
    ((progressOk_sdec h.1).2 ⟨hr, h.mono (by omega), ha, .inl ⟨rfl, by omega, rfl⟩⟩)

theorem sdecBody_sat (h : Streaming (k + 1) s) : (sdecBody (.sdec r) rc s).Sat (Streaming k) Inv := by
  unfold sdecBody
  split
  case isTrue ha => exact Running.inv_raise h.1 (faultOk_format (h.mono (by omega)) ha)
  case isFalse ha => exact sdecRead_sat hr h (Nat.le_antisymm (avail_le _ _) (by omega))

theorem sdecLoop_sat (h : Streaming k s) : (sdecLoop (.sdec r) rc k s).Sat (Streaming 0) Inv := by
  induction k generalizing s with
  | zero => exact h
  | succ k ih => exact (sdecBody_sat hr h).andThen fun _ => ih

theorem sdecRun_sat (h : Streaming 0 s) : (sdecRun (.sdec r) rc s).Sat (Streaming 0) Inv :=
  sdecLoop_sat hr (streaming_blocksLeft h)

/-- SENC resumed in a micro-state of R32 keeps the invariant. -/
theorem resumeSenc_sat {p : Progress} (hs : Running s) (hp : progressOk p s = true) (hc : p.command = .senc r) :
    (resumeSenc p rc s).Sat (Streaming 0) Inv := by
  obtain ⟨_, ph, j, n⟩ := p
  obtain rfl := hc
  obtain ⟨-, h, -, ⟨rfl, -⟩ | ⟨rfl, -⟩⟩ := (progressOk_senc hs).1 hp
  · exact (sencRead_sat hr h).andThen fun _ => sencRun_sat hr
  · exact (sencWrite_sat hr h).andThen fun _ => sencRun_sat hr

/-- SDEC resumed in a micro-state of R32 keeps the invariant. -/
theorem resumeSdec_sat {p : Progress} (hs : Running s) (hp : progressOk p s = true) (hc : p.command = .sdec r) :
    (resumeSdec p rc s).Sat (Streaming 0) Inv := by
  obtain ⟨_, ph, j, n⟩ := p
  obtain rfl := hc
  obtain ⟨-, h, ha, ⟨rfl, -⟩ | ⟨rfl, -, rfl⟩⟩ := (progressOk_sdec hs).1 hp
  · exact (sdecRead_sat hr h ha).andThen fun _ => sdecRun_sat hr
  · exact (sdecWrite_sat hr h ha).andThen fun _ => sdecRun_sat hr

end

theorem inv_close {f : Flow} (h : f.Sat Running Inv) : Inv f.close := h.close fun _ => Running.inv_complete

theorem inv_close_stream {f : Flow} (h : f.Sat (Streaming 0) Inv) : Inv f.close :=
  h.close fun _ ht => Running.inv_complete ht.1

/-! ### The step -/

theorem exec_keeps_inv {i : Instr} {s t : State} (hs : Running s) (h : exec i s = .next t) : Inv t := by
  have hbt : ∀ dir rc, Running (blockTransform dir rc s) := fun dir rc => by rw [blockTransform_eq]; exact hs
  cases i with
  | nop | kgen n | round | swap => cases h; exact Running.inv_complete hs
  | lenl n | lenh b => cases h; exact (hs.setLen _).inv_complete
  | benc r | bdec r => cases h; exact hs.inv_withRounds rfl fun rc _ => (hbt _ rc).inv_complete
  | ldblk => cases h; exact inv_close (ldblkFrom_sat hs)
  | stblk => cases h; exact inv_close (stblkFrom_sat hs)
  | stsk => cases h; exact inv_close (stskPush_sat hs)
  | senc r =>
    cases h
    exact hs.inv_withRounds rfl fun _ hr => inv_close_stream (sencRun_sat hr (streaming_startStream hs))
  | sdec r =>
    cases h
    exact hs.inv_withRounds rfl fun _ hr => inv_close_stream (sdecRun_sat hr (streaming_startStream hs))

theorem resume_keeps_inv {s : State} (h : Inv s) (hs : Running s) : Inv (resume s) := by
  unfold resume
  split
  case h_1 => exact h
  case h_2 p hcur =>
    have hp := h.progress p hcur
    split
    case h_1 => exact inv_close (ldblkFrom_sat hs)
    case h_2 => exact inv_close (stblkFrom_sat hs)
    case h_3 => exact inv_close (stskPush_sat hs)
    case h_4 r hc => exact hs.inv_withRounds rfl fun _ hr => inv_close_stream (resumeSenc_sat hr hs hp hc)
    case h_5 r hc => exact hs.inv_withRounds rfl fun _ hr => inv_close_stream (resumeSdec_sat hr hs hp hc)
    all_goals exact h

theorem execWord_keeps_inv {w : Word} {s t : State} (hs : Running s) (h : execWord w s = .next t) : Inv t := by
  unfold execWord at h
  split at h
  case h_1 e hd => cases h; exact hs.inv_raise (faultOk_illegalCmd s hd)
  case h_2 i hd => exact exec_keeps_inv hs h

theorem inv_resetFor (c : Config) : Inv (State.resetFor c) :=
  ⟨rfl, rfl, rfl, by simp, by simp, by simp, rfl⟩

theorem inv_resetEngine (s : State) : Inv (resetEngine s) :=
  ⟨rfl, rfl, rfl, by simp, by simp, by simp, rfl⟩

/-- Settles O59, branch by branch of `step`: reset, halted, in progress, idle without a word, idle with one. -/
theorem stepKeepsInvariant : Obligations.StepKeepsInvariant := by
  intro s t h hstep
  unfold step at hstep
  split at hstep
  case isTrue => cases hstep; exact inv_resetEngine s
  split at hstep
  case isTrue => cases hstep; exact h
  case isFalse hhalt =>
    have hs : Running s := running_of_inv h (by simpa using hhalt)
    split at hstep
    case isTrue => cases hstep; exact resume_keeps_inv h hs
    case isFalse =>
      split at hstep
      case h_1 => cases hstep; exact h
      case h_2 w ws hcmd => exact execWord_keeps_inv (s := accept ws s) hs hstep

/-- Settles O58: this hardware's reset state is that of its configuration. -/
theorem invariantHoldsAtReset : Obligations.InvariantHoldsAtReset := ⟨inv_resetFor Config.fge, inv_resetFor⟩

end Sys2Proof.Machine
end

section
/-! CLAIMS of 10_state.md: what a stream command's outcome depends on (R33), the status wires (R34) and reset (R35). -/

namespace Sys2Proof.Machine

/-- The state with BLK and SK blanked out: what is left is all that R33 lets a stream command's outcome depend on. -/
def State.hideBlkSk (s : State) : State := { s with blk := Bytes.replicate 128 0x00, sk := 0x00 }

/-- Once a block's input is offered, SENC's body pads it over whatever BLK held. -/
theorem sencRead_fed (i : Instr) (r : RoundCount) (s : State) (hd : availNow s ≤ s.din.length) :
    sencRead i r 0 s = sencWrite i 0 { s with
      blk := transform (pad (s.din.take (availNow s))) s.key r .encrypt,
      sk := subkey s.key r .encrypt (r.val - 1),
      din := s.din.drop (availNow s) } := by
  have hle : availNow s ≤ 128 := avail_le _ _
  have hl : (s.din.take (availNow s)).length = availNow s := List.length_take_of_le hd
  have hz : zeroFrom (availNow s) (setCells s.blk 0 (s.din.take (availNow s))) = pad (s.din.take (availNow s)) := by
    have h := zeroFrom_setCells s.blk (s.din.take (availNow s)) (by omega)
    rwa [hl] at h
  have ha : ∀ (b : Block) (d : List Byte), availNow { s with blk := b, din := d } = availNow s := fun _ _ => rfl
  rw [sencRead, Nat.sub_zero, loadBytes_enough _ _ _ _ hd, goOn_andThen, sencTransform, blockTransform_eq]
  simp only [ha, hz]

/-- Once 128 bytes are offered, SDEC's body loads them over whatever BLK held, and its transform sets SK before it
reads it. -/
theorem sdecRead_fed (i : Instr) (r : RoundCount) (s : State) (hd : 128 ≤ s.din.length) :
    sdecRead i r 0 s =
      sdecTransform i r { s with blk := pad (s.din.take 128), sk := 0x00, din := s.din.drop 128 } := by
  have hb : setCells s.blk 0 (s.din.take 128) = pad (s.din.take 128) :=
    (pad_eq_of_list (setCells_all _ _ (List.length_take_of_le hd))).symm
  rw [sdecRead, Nat.sub_zero, loadBytes_enough _ _ _ _ hd, goOn_andThen, hb]
  simp only [sdecTransform, blockTransform_eq]

/-- The loop of SENC: the first block either waits for input before it uses BLK and SK, or overwrites both. -/
theorem sencLoop_hideBlkSk (i : Instr) (r : RoundCount) (k : Nat) (s : State) (b : Block) (v : Byte) :
    (sencLoop i r k { s with blk := b, sk := v }).close.hideBlkSk = (sencLoop i r k s).close.hideBlkSk := by
  cases k with
  | zero => rfl
  | succ k =>
    rcases Nat.lt_or_ge s.din.length (availNow s) with hd | hd
    · rw [sencLoop, sencLoop, sencRead_starved _ _ _ hd, sencRead_starved _ _ _ (by exact hd)]
      rfl
    · rw [sencLoop, sencLoop, sencRead_fed _ _ _ hd, sencRead_fed _ _ _ (by exact hd)]
      rfl

/-- The loop of SDEC: the first block faults or waits for input before it uses BLK and SK, or overwrites both. -/
theorem sdecLoop_hideBlkSk (i : Instr) (r : RoundCount) (k : Nat) (s : State) (b : Block) (v : Byte) :
    (sdecLoop i r k { s with blk := b, sk := v }).close.hideBlkSk = (sdecLoop i r k s).close.hideBlkSk := by
  cases k with
  | zero => rfl
  | succ k =>
    have ha : availNow { s with blk := b, sk := v } = availNow s := rfl
    rw [sdecLoop, sdecLoop, sdecBody, sdecBody, ha]
    split
    case isTrue => rfl
    case isFalse =>
      rcases Nat.lt_or_ge s.din.length 128 with hd | hd
      · rw [sdecRead_starved _ _ _ hd, sdecRead_starved _ _ _ (by exact hd)]
        rfl
      · rw [sdecRead_fed _ _ _ hd, sdecRead_fed _ _ _ (by exact hd)]

/-- Two round checks of the same field agree up to BLK and SK where their bodies do. -/
theorem withRounds_hideBlkSk (r : BitVec 4) (i : Instr) {s s' : State} {f g : RoundCount → State}
    (hs : s'.hideBlkSk = s.hideBlkSk) (hfg : ∀ rc, (f rc).hideBlkSk = (g rc).hideBlkSk) :
    (withRounds r i s' f).hideBlkSk = (withRounds r i s g).hideBlkSk := by
  rcases rounds_cases r with ⟨rc, rfl⟩ | h
  · rw [withRounds_legal, withRounds_legal]; exact hfg rc
  · rw [withRounds_illegal _ _ _ _ h, withRounds_illegal _ _ _ _ h]
    exact congrArg (raise .roundsRange (encode i)) hs

/-- What the host can see of a stream command's outcome is not in BLK and SK. -/
theorem outcome_eq_of_hideBlkSk {t t' : State} (h : t'.hideBlkSk = t.hideBlkSk) :
    t.dout = t'.dout ∧ t.din = t'.din ∧ t.blkIdx = t'.blkIdx ∧ t.cur = t'.cur ∧ t.err = t'.err ∧
      t.errInfo = t'.errInfo := by
  simp only [State.hideBlkSk, State.mk.injEq] at h
  simp [h]

/-- Settles O34: the two outcomes are equal once BLK and SK are hidden. -/
theorem streamIgnoresEarlierBlockAndSubkey : Obligations.StreamIgnoresEarlierBlockAndSubkey := by
  intro r s t t' b v
  constructor
  · rintro ⟨⟩ ⟨⟩
    exact outcome_eq_of_hideBlkSk (withRounds_hideBlkSk r (.senc r) rfl fun rc =>
      sencLoop_hideBlkSk (.senc r) rc _ (startStream s) b v)
  · rintro ⟨⟩ ⟨⟩
    exact outcome_eq_of_hideBlkSk (withRounds_hideBlkSk r (.sdec r) rfl fun rc =>
      sdecLoop_hideBlkSk (.sdec r) rc _ (startStream s) b v)

/-! ### Status wires and reset -/

/-- Settles O52: the two branches of R34, BUSY = 0 and BUSY = 1. -/
theorem statusWiresShowRegistersWhenNotBusy : Obligations.StatusWiresShowRegistersWhenNotBusy := by
  intro s w
  constructor
  · intro hb
    rw [mayShow, if_neg (by simp [hb]), beq_iff_eq, registerWires]
  · intro hb
    rw [mayShow, if_pos hb, Bool.and_eq_true, Bool.not_eq_true']

/-- Settles O57: each register's value in the reset state of R35. -/
theorem resetStateValues : Obligations.ResetStateValues := by
  refine ⟨fun c => ⟨fun i => ?_, rfl, rfl, rfl, rfl, rfl, rfl, rfl, rfl, rfl, rfl, rfl⟩, rfl, rfl⟩
  rw [resetFor_blk, Bytes.get_replicate]

end Sys2Proof.Machine
end

section
/-! SUPPORT. One step of the engine: the branch it takes, and what a resumed command keeps to (10_state.md R36 for a
command in progress). -/

namespace Sys2Proof.Machine

/-- No command's meaning ends the run of the machine. -/
theorem exec_answers_next (i : Instr) (s : State) : ∃ t, exec i s = .next t := by
  cases i <;> exact ⟨_, rfl⟩

theorem execWord_answers_next (w : Word) (s : State) : ∃ t, execWord w s = .next t := by
  unfold execWord
  split
  · exact ⟨_, rfl⟩
  · exact exec_answers_next _ s

theorem step_of_rst {s : State} (hr : s.rst = true) : step s = .next (resetEngine s) := by
  simp [step, hr]

theorem step_of_halt {s : State} (hr : s.rst = false) (hh : s.halt = true) : step s = .next s := by
  simp [step, hr, hh]

theorem step_of_busy {s : State} (hr : s.rst = false) (hh : s.halt = false) (hb : s.busy = true) :
    step s = .next (resume s) := by
  simp [step, hr, hh, hb]

theorem cmdReady_iff (s : State) : cmdReady s = true ↔ s.rst = false ∧ s.busy = false ∧ s.halt = false := by
  simp [cmdReady, State.idle]

theorem step_of_ready_nil {s : State} (h : cmdReady s = true) (hc : s.cmd = []) : step s = .next s := by
  obtain ⟨hr, hb, hh⟩ := (cmdReady_iff s).1 h
  simp [step, hr, hh, hb, hc]

theorem step_of_ready_cons {s : State} {w : Word} {ws : List Word} (h : cmdReady s = true) (hc : s.cmd = w :: ws) :
    step s = execWord w (accept ws s) := by
  obtain ⟨hr, hb, hh⟩ := (cmdReady_iff s).1 h
  simp [step, hr, hh, hb, hc]

/-- The five branches of a step. -/
theorem step_cases {s t : State} (h : step s = .next t) :
    (cmdReady s = false ∧ t = resetEngine s) ∨ (cmdReady s = false ∧ t = s) ∨
    (cmdReady s = false ∧ t = resume s) ∨ (cmdReady s = true ∧ s.cmd = [] ∧ t = s) ∨
    (cmdReady s = true ∧ ∃ w ws, s.cmd = w :: ws ∧ execWord w (accept ws s) = .next t) := by
  rcases hr : s.rst with _ | _
  case true =>
    rw [step_of_rst hr] at h
    cases h
    exact .inl ⟨by simp [cmdReady, hr], rfl⟩
  rcases hh : s.halt with _ | _
  case true =>
    rw [step_of_halt hr hh] at h
    cases h
    exact .inr (.inl ⟨by simp [cmdReady, State.idle, hh], rfl⟩)
  rcases hb : s.busy with _ | _
  case true =>
    rw [step_of_busy hr hh hb] at h
    cases h
    exact .inr (.inr (.inl ⟨by simp [cmdReady, State.idle, hb], rfl⟩))
  have hready : cmdReady s = true := (cmdReady_iff s).2 ⟨hr, hb, hh⟩
  rcases hc : s.cmd with _ | ⟨w, ws⟩
  · rw [step_of_ready_nil hready hc] at h
    cases h
    exact .inr (.inr (.inr (.inl ⟨hready, rfl, rfl⟩)))
  · rw [step_of_ready_cons hready hc] at h
    exact .inr (.inr (.inr (.inr ⟨hready, w, ws, rfl, h⟩)))

/-! ### A command in progress keeps to its row of the access matrix -/

section
variable {r : BitVec 4} {rc : RoundCount} {i : Instr} {s t : State}

theorem sencTransform_frame (h : Frame (accessRow (.senc r)) s t) :
    Frame.Along (accessRow (.senc r)) s (sencTransform i rc t) :=
  sencWrite_frame 0 (h.trans ((Frame.setBlk rfl _).trans (.blockTransform rfl rfl _ _)))

theorem sdecWrite_frame (n j : Nat) (h : Frame (accessRow (.sdec r)) s t) :
    Frame.Along (accessRow (.sdec r)) s (sdecWrite i n j t) :=
  (Frame.emitBytes rfl _ _ _ h).andThen fun _ => nextBlock_frame (r := r)

theorem sdecTransform_frame (h : Frame (accessRow (.sdec r)) s t) :
    Frame.Along (accessRow (.sdec r)) s (sdecTransform i rc t) :=
  sdecWrite_frame _ 0 (h.trans (.blockTransform rfl rfl _ _))

theorem resumeSenc_frame (p : Progress) : Frame.Along (accessRow (.senc r)) s (resumeSenc p rc s) := by
  refine Flow.Sat.andThen (P := Frame (accessRow (.senc r)) s) ?_ fun _ => sencLoop_frame _
  split
  · exact (Frame.loadBytes rfl rfl _ _ _ (.refl _ s)).andThen fun _ => sencTransform_frame
  · exact sencTransform_frame (.refl _ s)
  · exact sencWrite_frame _ (.refl _ s)

theorem resumeSdec_frame (p : Progress) : Frame.Along (accessRow (.sdec r)) s (resumeSdec p rc s) := by
  refine Flow.Sat.andThen (P := Frame (accessRow (.sdec r)) s) ?_ fun _ => sdecLoop_frame _
  split
  · exact (Frame.loadBytes rfl rfl _ _ _ (.refl _ s)).andThen fun _ => sdecTransform_frame
  · exact sdecTransform_frame (.refl _ s)
  · exact sdecWrite_frame _ _ (.refl _ s)

end

theorem resume_frame (s : State) : ∃ a, Frame a s (resume s) := by
  unfold resume
  split
  case h_1 => exact ⟨_, .refl {} s⟩
  case h_2 p _ =>
    split
    case h_1 => exact ⟨accessRow .ldblk, .close (Frame.loadBytes rfl rfl _ _ _ (.refl _ s))⟩
    case h_2 => exact ⟨accessRow .stblk, .close (Frame.emitBytes rfl _ _ _ (.refl _ s))⟩
    case h_3 => exact ⟨accessRow .stsk, .close (Frame.emitBytes rfl _ _ _ (.refl _ s))⟩
    case h_4 r _ => exact ⟨accessRow (.senc r), .withRounds rfl fun _ => .close (resumeSenc_frame p)⟩
    case h_5 r _ => exact ⟨accessRow (.sdec r), .withRounds rfl fun _ => .close (resumeSdec_frame p)⟩
    all_goals exact ⟨_, .refl {} s⟩

theorem execWord_frame {w : Word} {s t : State} (h : execWord w s = .next t) : ∃ a, Frame a s t := by
  unfold execWord at h
  split at h
  case h_1 => cases h; exact ⟨{ mayFault := true }, .raise rfl _ _⟩
  case h_2 i _ => exact ⟨_, exec_frame i h⟩

end Sys2Proof.Machine
end

section
/-! CLAIMS of 20_memory.md on the step and the host: acceptance (R51), final transfers (R57), host moves (R64). -/

namespace Sys2Proof.Machine

/-- Settles O49, branch by branch of the step: only an accepted word touches CMD and the index. -/
theorem wordsAcceptedInOrderWhenReady : Obligations.WordsAcceptedInOrderWhenReady := by
  intro s t h
  rcases step_cases h with ⟨hr, rfl⟩ | ⟨hr, rfl⟩ | ⟨hr, rfl⟩ | ⟨hr, hc, rfl⟩ | ⟨hr, w, ws, hc, hw⟩
  · simp [hr]
  · simp [hr]
  · obtain ⟨a, f⟩ := resume_frame s
    simp [hr, f.cmd, f.accepted]
  · simp [hc]
  · obtain ⟨a, f⟩ := execWord_frame hw
    simp [hr, hc, f.cmd, f.accepted]

/-- Settles O50, branch by branch of the step: reset touches no stream, and commands keep to the access matrix. -/
theorem transfersAreFinal : Obligations.TransfersAreFinal := by
  constructor
  · intro s t h
    rcases step_cases h with ⟨-, rfl⟩ | ⟨-, rfl⟩ | ⟨-, rfl⟩ | ⟨-, -, rfl⟩ | ⟨-, w, ws, -, hw⟩
    · exact ⟨List.prefix_rfl, List.suffix_rfl⟩
    · exact ⟨List.prefix_rfl, List.suffix_rfl⟩
    · obtain ⟨a, f⟩ := resume_frame s
      exact ⟨f.doutPrefix, f.dinSuffix⟩
    · exact ⟨List.prefix_rfl, List.suffix_rfl⟩
    · obtain ⟨a, f⟩ := execWord_frame hw
      exact ⟨f.doutPrefix, f.dinSuffix⟩
  · intro m s
    cases m <;> rfl

/-- The invariant speaks of the engine alone, not of the host's side of the ports. -/
theorem inv_setHostSide {s : State} (h : Inv s) (ws : List Word) (bs : List Byte) (room : Option Nat) (level : Bool) :
    Inv { s with cmd := ws, din := bs, doutRoom := room, rst := level } :=
  ⟨h.busyHoldsCommand, h.notBusyAndHalted, h.haltIffErr, h.idxLeCnt, h.cntBound, h.progress, h.fault⟩

theorem hostMove_eq (m : HostMove) (s : State) : hostMove m s = { s with
    cmd := (hostMove m s).cmd, din := (hostMove m s).din, doutRoom := (hostMove m s).doutRoom,
    rst := (hostMove m s).rst } := by
  cases m <;> rfl

/-- Settles O51, move by move. -/
theorem hostMovesChangeNoRegister : Obligations.HostMovesChangeNoRegister := by
  intro m s
  refine ⟨hostMove_eq m s, fun h => ?_⟩
  rw [hostMove_eq]
  exact inv_setHostSide h _ _ _ _

/-- Settles O53: the branch of the step that accepts a word, for a word that decodes. -/
theorem stepRunsTheDecodedCommand : Obligations.StepRunsTheDecodedCommand := by
  intro s w ws i hr hidle hc hd
  have hready : cmdReady s = true := by simp [cmdReady, hr, hidle]
  rw [step_of_ready_cons hready hc, execWord, hd]
  rfl

/-- Settles O60, branch by branch of the step. -/
theorem everyStepAnswersANextState : Obligations.EveryStepAnswersANextState := by
  intro s
  unfold step
  split
  · exact ⟨_, rfl⟩
  split
  · exact ⟨_, rfl⟩
  split
  · exact ⟨_, rfl⟩
  split
  · exact ⟨_, rfl⟩
  · exact execWord_answers_next _ _

/-- Settles O40: the writing loop pushes what the host accepts and waits; STSK is a loop of one byte. -/
theorem storesWaitForHost : Obligations.StoresWaitForHost := by
  constructor
  · intro s k hk h128
    have h := emitBytes_full (fun j => ⟨.stblk, .writing, j, 0⟩) s.blk.list 0 k s hk (by rwa [s.blk.size])
    simp [exec, execStblk, stblkFrom, emitBlk, h, waitAt]
  · intro s hk
    have h := emitBytes_full (fun j => ⟨.stsk, .writing, j, 0⟩) [s.sk] 0 0 s hk (by simp)
    simp [exec, execStsk, stskPush, h, waitAt, ← hk]

end Sys2Proof.Machine
end

section
/-! SUPPORT. A resumed stream command as its next port loop and what follows it (10_state.md R32, 43_stream.md R175,
R176). -/

namespace Sys2Proof.Machine

theorem andThen_goOn (f : Flow) : f.andThen .goOn = f := by cases f <;> rfl

/-- After a block has been written: the next block, and the loop from its top. -/
def nextThen (run : State → Flow) (s : State) : Flow := (nextBlock s).andThen run

/-- After SENC has read a block's input: the rest of the command. -/
def sencAfterRead (i : Instr) (r : RoundCount) (s : State) : Flow := (sencTransform i r s).andThen (sencRun i r)

/-- After SDEC has read a block's input: the rest of the command. -/
def sdecAfterRead (i : Instr) (r : RoundCount) (s : State) : Flow := (sdecTransform i r s).andThen (sdecRun i r)

theorem sencRead_andThen_run (i : Instr) (r : RoundCount) (j : Nat) (s : State) :
    (sencRead i r j s).andThen (sencRun i r) =
      (loadBytes (fun j => ⟨i, .reading, j, 0⟩) (availNow s - j) j s).andThen (sencAfterRead i r) :=
  andThen_assoc _ _ _

theorem sencWrite_andThen_run (i : Instr) (r : RoundCount) (j : Nat) (s : State) :
    (sencWrite i j s).andThen (sencRun i r) =
      (emitBlk (fun j => ⟨i, .writing, j, 0⟩) 128 j s).andThen (nextThen (sencRun i r)) :=
  andThen_assoc _ _ _

theorem sdecRead_andThen_run (i : Instr) (r : RoundCount) (j : Nat) (s : State) :
    (sdecRead i r j s).andThen (sdecRun i r) =
      (loadBytes (fun j => ⟨i, .reading, j, 0⟩) (128 - j) j s).andThen (sdecAfterRead i r) :=
  andThen_assoc _ _ _

theorem sdecWrite_andThen_run (i : Instr) (r : RoundCount) (n j : Nat) (s : State) :
    (sdecWrite i n j s).andThen (sdecRun i r) =
      (emitBlk (fun j => ⟨i, .writing, j, n⟩) n j s).andThen (nextThen (sdecRun i r)) :=
  andThen_assoc _ _ _

section
variable {r : BitVec 4} {rc : RoundCount} {i : Instr} {s t : State}

theorem sencAfterRead_frame (t : State) : Frame.Along (accessRow (.senc r)) t (sencAfterRead i rc t) :=
  (sencTransform_frame (.refl _ t)).andThen fun _ => sencLoop_frame _

theorem sdecAfterRead_frame (t : State) : Frame.Along (accessRow (.sdec r)) t (sdecAfterRead i rc t) :=
  (sdecTransform_frame (.refl _ t)).andThen fun _ => sdecLoop_frame _

theorem nextThen_sencRun_frame (t : State) : Frame.Along (accessRow (.senc r)) t (nextThen (sencRun i rc) t) :=
  (nextBlock_frame (.refl _ t)).andThen fun _ => sencLoop_frame _

theorem nextThen_sdecRun_frame (t : State) : Frame.Along (accessRow (.sdec r)) t (nextThen (sdecRun i rc) t) :=
  (nextBlock_frame (r := r) (.refl _ t)).andThen fun _ => sdecLoop_frame _

end

/-! ### Resumption, by command and phase -/

section
variable {rc : RoundCount} {s : State} {j n : Nat}

theorem resume_ldblk (hc : s.cur = some ⟨.ldblk, .reading, j, n⟩) : resume s = (ldblkFrom j s).close := by
  rw [resume, hc]

theorem resume_stblk (hc : s.cur = some ⟨.stblk, .writing, j, n⟩) : resume s = (stblkFrom j s).close := by
  rw [resume, hc]

theorem resume_stsk (hc : s.cur = some ⟨.stsk, .writing, j, n⟩) : resume s = (stskPush s).close := by
  rw [resume, hc]

theorem resume_senc_reading (hc : s.cur = some ⟨.senc (BitVec.ofNat 4 rc.val), .reading, j, n⟩) :
    resume s = ((loadBytes (fun j => ⟨.senc (BitVec.ofNat 4 rc.val), .reading, j, 0⟩) (availNow s - j) j s).andThen
      (sencAfterRead (.senc (BitVec.ofNat 4 rc.val)) rc)).close := by
  rw [resume, hc, ← sencRead_andThen_run]
  exact withRounds_legal rc _ _ _

theorem resume_senc_writing (hc : s.cur = some ⟨.senc (BitVec.ofNat 4 rc.val), .writing, j, n⟩) :
    resume s = ((emitBlk (fun j => ⟨.senc (BitVec.ofNat 4 rc.val), .writing, j, 0⟩) 128 j s).andThen
      (nextThen (sencRun (.senc (BitVec.ofNat 4 rc.val)) rc))).close := by
  rw [resume, hc, ← sencWrite_andThen_run]
  exact withRounds_legal rc _ _ _

theorem resume_sdec_reading (hc : s.cur = some ⟨.sdec (BitVec.ofNat 4 rc.val), .reading, j, n⟩) :
    resume s = ((loadBytes (fun j => ⟨.sdec (BitVec.ofNat 4 rc.val), .reading, j, 0⟩) (128 - j) j s).andThen
      (sdecAfterRead (.sdec (BitVec.ofNat 4 rc.val)) rc)).close := by
  rw [resume, hc, ← sdecRead_andThen_run]
  exact withRounds_legal rc _ _ _

theorem resume_sdec_writing (hc : s.cur = some ⟨.sdec (BitVec.ofNat 4 rc.val), .writing, j, n⟩) :
    resume s = ((emitBlk (fun j => ⟨.sdec (BitVec.ofNat 4 rc.val), .writing, j, n⟩) n j s).andThen
      (nextThen (sdecRun (.sdec (BitVec.ofNat 4 rc.val)) rc))).close := by
  rw [resume, hc, ← sdecWrite_andThen_run]
  exact withRounds_legal rc _ _ _

end

end Sys2Proof.Machine
end

section
/-! CLAIMS of 20_memory.md section 6 (R63): a command in progress makes no step exactly while its port is blocked. The
loop a resumed command begins with stands still on a blocked port and makes a transfer on any other. -/

namespace Sys2Proof.Machine

/-- Since `s` a byte has been transferred on DIN or on DOUT. -/
def Transferred (s t : State) : Prop := t.din.length < s.din.length ∨ s.dout.length < t.dout.length

theorem Transferred.ne {s t : State} (h : Transferred s t) : t ≠ s := by
  rintro rfl
  exact h.elim (Nat.lt_irrefl _) (Nat.lt_irrefl _)

/-- Transfers are final, so a later part of the pseudocode does not undo one. -/
theorem Transferred.frame {a : AccessRow} {s t u : State} (h : Transferred s t) (f : Frame a t u) : Transferred s u :=
  h.imp (Nat.lt_of_le_of_lt f.dinSuffix.length_le) (Nat.lt_of_lt_of_le · f.doutPrefix.length_le)

theorem loadBytes_transferred (p : Nat → Progress) {k : Nat} (j : Nat) {s : State} (hk : 0 < k) (hd : s.din ≠ []) :
    (loadBytes p k j s).Sat (Transferred s) (Transferred s) := by
  have hpos := List.length_pos_iff.2 hd
  refine loadBytes_sat p k j s (.inl ?_) fun _ => .inl hpos
  rw [List.length_drop]; omega

theorem emitBytes_transferred (p : Nat → Progress) {bs : List Byte} (j : Nat) {s : State} (hbs : bs ≠ [])
    (hr : s.doutRoom ≠ some 0) : (emitBytes p bs j s).Sat (Transferred s) (Transferred s) := by
  obtain ⟨b, bs, rfl⟩ := List.exists_cons_of_ne_nil hbs
  have h1 : s.hasRoom 1 = true := by
    rcases h : s.doutRoom with _ | _ | n
    · exact hasRoom_none 1 h
    · exact absurd h hr
    · simp [State.hasRoom, h]
  rw [emitBytes, doutPush_room b s h1]
  refine emitBytes_sat p bs _ _ (.inr ?_) fun _ _ => .inr ?_ <;> simp

/-- A command that goes on with the loop `f` and then with `K` has transferred a byte when `f` does. -/
theorem transferred_close {a : AccessRow} {s : State} {f : Flow} {K : State → Flow}
    (hf : f.Sat (Transferred s) (Transferred s)) (hK : ∀ t, Frame.Along a t (K t)) :
    Transferred s (f.andThen K).close := by
  refine Flow.Sat.close (P := Transferred s) (hf.andThen fun t ht => ?_) fun t ht => ht
  have h := hK t
  rcases hKt : K t with u | u <;> rw [hKt] at h <;> exact ht.frame h

theorem loadBytes_blocked (p : Nat → Progress) {k : Nat} (j : Nat) {s : State} (hk : 0 < k) (hd : s.din = [])
    (hb : s.busy = true) (hc : s.cur = some (p j)) : loadBytes p k j s = .stop s := by
  obtain ⟨k, rfl⟩ := Nat.exists_eq_add_one.2 hk
  rw [loadBytes, dinPop_nil hd, waitAt, ← hb, ← hc]

theorem emitBytes_blocked (p : Nat → Progress) {bs : List Byte} (j : Nat) {s : State} (hbs : bs ≠ [])
    (hr : s.doutRoom = some 0) (hb : s.busy = true) (hc : s.cur = some (p j)) : emitBytes p bs j s = .stop s := by
  obtain ⟨b, bs, rfl⟩ := List.exists_cons_of_ne_nil hbs
  rw [emitBytes, doutPush_full b s hr, waitAt, ← hb, ← hc]

/-- The micro-state `p` at byte counter `j`. -/
def Progress.atByte (p : Progress) (j : Nat) : Progress := { p with j := j }

/-- A command in micro-state `p` goes on with the transfers of its phase: it pops at least one byte in the reading
phase, or pushes at least one in the writing phase, and then keeps to the access matrix. -/
inductive GoesOn (p : Progress) (s : State) : Prop
  | reading (a : AccessRow) (k : Nat) (K : State → Flow) (hp : p.phase = .reading) (hk : 0 < k)
      (hres : resume s = ((loadBytes p.atByte k p.j s).andThen K).close) (hK : ∀ t, Frame.Along a t (K t))
  | writing (a : AccessRow) (bs : List Byte) (K : State → Flow) (hp : p.phase = .writing) (hbs : bs ≠ [])
      (hres : resume s = ((emitBytes p.atByte bs p.j s).andThen K).close) (hK : ∀ t, Frame.Along a t (K t))

theorem blkBytes_ne_nil {s : State} {n j : Nat} (h : j < min n 128) : (s.blk.list.take n).drop j ≠ [] := by
  rw [← List.length_pos_iff, List.length_drop, List.length_take, s.blk.size]; omega

theorem legal_of_legalRounds {r : BitVec 4} (h : legalRounds r = true) :
    ∃ rc : RoundCount, r = BitVec.ofNat 4 rc.val := by
  rcases rounds_cases r with hrc | hr
  · exact hrc
  · rw [legalRounds_iff] at h; omega

theorem stripFrom_le (bytes : List Byte) (n : Nat) : stripFrom bytes n ≤ n := by
  induction n with
  | zero => exact Nat.le_refl 0
  | succ n ih => unfold stripFrom; split <;> omega

theorem pushLen_le (s : State) : pushLen s ≤ 128 := by
  unfold pushLen
  split
  · exact stripFrom_le _ _
  · exact Nat.le_refl _

theorem goesOn_of_inv {s : State} {p : Progress} (h : Inv s) (hs : Running s) (hc : s.cur = some p) : GoesOn p s := by
  have hp := h.progress p hc
  obtain ⟨i, ph, j, n⟩ := p
  cases i with
  | ldblk =>
    obtain ⟨rfl, hj, rfl⟩ := (progressOk_ldblk _ _ _ _).1 hp
    refine .reading {} (128 - j) .goOn rfl (by omega) ?_ (.refl _)
    rw [andThen_goOn, resume_ldblk hc]; rfl
  | stblk =>
    obtain ⟨rfl, hj, rfl⟩ := (progressOk_stblk _ _ _ _).1 hp
    refine .writing {} ((s.blk.list.take 128).drop j) .goOn rfl (blkBytes_ne_nil (by omega)) ?_ (.refl _)
    rw [andThen_goOn, resume_stblk hc]; rfl
  | stsk =>
    obtain ⟨⟨rfl, rfl⟩, rfl⟩ : (ph = .writing ∧ j = 0) ∧ n = 0 := by simpa [progressOk] using hp
    refine .writing {} [s.sk] .goOn rfl (List.cons_ne_nil _ _) ?_ (.refl _)
    rw [andThen_goOn, resume_stsk hc]; rfl
  | senc r =>
    obtain ⟨hr, -, rfl, ⟨rfl, hj⟩ | ⟨rfl, hj⟩⟩ := (progressOk_senc hs).1 hp
    all_goals obtain ⟨rc, rfl⟩ := legal_of_legalRounds hr
    · exact .reading _ _ _ rfl (Nat.sub_pos_of_lt hj) (resume_senc_reading hc) (sencAfterRead_frame (r := 0))
    · exact .writing _ _ _ rfl (blkBytes_ne_nil (lt_min hj hj)) (resume_senc_writing hc)
        (nextThen_sencRun_frame (r := 0))
  | sdec r =>
    obtain ⟨hr, -, -, ⟨rfl, hj, rfl⟩ | ⟨rfl, hj, rfl⟩⟩ := (progressOk_sdec hs).1 hp
    all_goals obtain ⟨rc, rfl⟩ := legal_of_legalRounds hr
    · exact .reading _ _ _ rfl (Nat.sub_pos_of_lt hj) (resume_sdec_reading hc) (sdecAfterRead_frame (r := 0))
    · exact .writing _ _ _ rfl (blkBytes_ne_nil (lt_min hj (hj.trans_le (pushLen_le s)))) (resume_sdec_writing hc)
        (nextThen_sdecRun_frame (r := 0))
  | nop | kgen _ | round | swap | benc _ | bdec _ | lenl _ | lenh _ => exact absurd hp (by simp [progressOk])

/-- Settles O46: the first loop of the resumed command stands still on its blocked port, and transfers a byte on any
other. -/
theorem waitLastsWhilePortIsBlocked : Obligations.WaitLastsWhilePortIsBlocked := by
  intro s h hr hb
  have hh : s.halt = false := by simpa [hb] using h.notBusyAndHalted
  obtain ⟨p, hc⟩ := Option.isSome_iff_exists.1 (h.busyHoldsCommand.symm.trans hb)
  rw [step_of_busy hr hh hb, Host.Outcome.next.injEq]
  rcases goesOn_of_inv h (running_of_inv h hh) hc with
    ⟨a, k, K, hp, hk, hres, hK⟩ | ⟨a, bs, K, hp, hbs, hres, hK⟩
  · have hblocked : blocked s = true ↔ s.din = [] := by
      simp [blocked, dinReady, doutValid, waitsIn, hr, hh, hb, hc, hp]
    rw [hblocked, hres]
    constructor
    · intro hstay
      exact by_contra fun hd => (transferred_close (loadBytes_transferred _ _ hk hd) hK).ne hstay
    · intro hd
      rw [loadBytes_blocked _ _ hk hd hb hc]; rfl
  · have hblocked : blocked s = true ↔ s.doutRoom = some 0 := by
      simp [blocked, dinReady, doutValid, waitsIn, hr, hh, hb, hc, hp]
    rw [hblocked, hres]
    constructor
    · intro hstay
      exact by_contra fun hroom => (transferred_close (emitBytes_transferred _ _ hbs hroom) hK).ne hstay
    · intro hroom
      rw [emitBytes_blocked _ _ hbs hroom hb hc]; rfl

end Sys2Proof.Machine
end

section
/-! CLAIMS of 20_memory.md sections 5 and 6 (R60, R63): where a stream command waits. The blocks before the one it waits
in are those of `afterBlocks`; in that block it waits reading (starved of input) or writing (held back). -/

namespace Sys2Proof.Machine

/-! ### Blocks laid end to end -/

theorem length_flatMap_blocks (f : Nat → Block) (q : Nat) :
    ((List.range q).flatMap fun i => (f i).list).length = 128 * q := by
  simp [List.length_flatMap, Bytes.size, Nat.mul_comm]

/-- The first `k` bytes of a sequence of blocks: the blocks before block `k / 128`, and a part of that one. -/
theorem take_flatMap_blocks (f : Nat → Block) {k n : Nat} (h : k < 128 * n) :
    ((List.range n).flatMap fun i => (f i).list).take k =
      ((List.range (k / 128)).flatMap fun i => (f i).list) ++ (f (k / 128)).list.take (k % 128) := by
  obtain ⟨m, rfl⟩ : ∃ m, n = k / 128 + 1 + m := Nat.exists_eq_add_of_le (by omega)
  rw [List.range_add, List.flatMap_append, List.range_succ, List.flatMap_append, List.append_assoc, List.take_append,
    List.take_of_length_le (by rw [length_flatMap_blocks]; omega), length_flatMap_blocks, List.take_append,
    show k - 128 * (k / 128) = k % 128 by omega]
  simp [Bytes.size, show k % 128 - 128 = 0 by omega]

/-- The first `q` blocks of the stream `P`, each transformed and in full. -/
def transformedBlocks (P : List Byte) (K : Byte) (r : RoundCount) (dir : Direction) (q : Nat) : List Byte :=
  (List.range q).flatMap fun i => (blockOf P K r dir i).list

theorem length_transformedBlocks (P : List Byte) (K : Byte) (r : RoundCount) (dir : Direction) (q : Nat) :
    (transformedBlocks P K r dir q).length = 128 * q := length_flatMap_blocks _ q

/-- The state after `q` blocks of a stream command started in `s`, all of them pushed in full. -/
def afterFullBlocks (s : State) (r : RoundCount) (dir : Direction) (q : Nat) : State :=
  afterBlocks s r dir q (transformedBlocks (s.din.take s.len.toNat) s.key r dir q)

/-! ### The state a stream command waits in -/

section
variable (i : Instr) (r : RoundCount) (dir : Direction) (s : State)

/-- The input of block `q` is the next on DIN. -/
theorem transform_din_afterFullBlocks (q : Nat) :
    transform (pad ((afterFullBlocks s r dir q).din.take (avail s.len.toNat q))) (afterFullBlocks s r dir q).key r dir =
      blockOf (s.din.take s.len.toNat) s.key r dir q := by
  rw [blockOf, ← chunk_take_din]; rfl

/-- Starved of input: the bytes of the block in progress stand in the first cells of BLK, over the block before. -/
theorem list_loaded (hd : s.din.length < s.len.toNat) :
    (setCells (afterFullBlocks s r dir (s.din.length / 128)).blk 0
      (afterFullBlocks s r dir (s.din.length / 128)).din).list =
        s.din.drop (128 * (s.din.length / 128)) ++
          (if s.din.length < 128 then s.blk
            else blockOf s.din s.key r dir (s.din.length / 128 - 1)).list.drop (s.din.length % 128) := by
  have hmin : min s.len.toNat (128 * (s.din.length / 128)) = 128 * (s.din.length / 128) := by omega
  have hlen : s.din.length - 128 * (s.din.length / 128) = s.din.length % 128 := by omega
  simp only [afterFullBlocks, afterBlocks, hmin, List.take_of_length_le hd.le,
    Nat.div_eq_zero_iff_lt (show 0 < 128 by decide)]
  rw [list_setCells _ _ _ (by rw [List.length_drop]; omega), List.length_drop, hlen]
  simp

/-- Starved of input: all bytes offered are consumed. -/
theorem waiting_reading_eq (b : Block) (hd : s.din.length < s.len.toNat) :
    waitAt ⟨i, .reading, (afterFullBlocks s r dir (s.din.length / 128)).din.length, 0⟩
      { afterFullBlocks s r dir (s.din.length / 128) with blk := b, din := [] } = { s with
        blkCnt := BitVec.ofNat 26 (blockCount s.len.toNat),
        blkIdx := BitVec.ofNat 26 (s.din.length / 128),
        blk := b,
        sk := if s.din.length < 128 then s.sk else subkey s.key r dir (r.val - 1),
        din := [],
        dout := s.dout ++ transformedBlocks s.din s.key r dir (s.din.length / 128),
        doutRoom := s.roomAfter (128 * (s.din.length / 128)),
        busy := true,
        cur := some ⟨i, .reading, s.din.length % 128, 0⟩ } := by
  have hlen : s.din.length - min s.len.toNat (128 * (s.din.length / 128)) = s.din.length % 128 := by omega
  simp only [afterFullBlocks, afterBlocks, waitAt, List.take_of_length_le hd.le, List.length_drop, hlen,
    length_transformedBlocks, Nat.div_eq_zero_iff_lt (show 0 < 128 by decide)]

/-- Held back on output: the input of the block in progress is consumed, the block is transformed, and its first bytes
are pushed up to what the host accepted. -/
theorem waiting_writing_eq (k n : Nat) :
    waitAt ⟨i, .writing, k % 128, n⟩ { afterFullBlocks s r dir (k / 128) with
      blk := blockOf (s.din.take s.len.toNat) s.key r dir (k / 128),
      sk := subkey s.key r dir (r.val - 1),
      din := (afterFullBlocks s r dir (k / 128)).din.drop (avail s.len.toNat (k / 128)),
      dout := (afterFullBlocks s r dir (k / 128)).dout ++
        (blockOf (s.din.take s.len.toNat) s.key r dir (k / 128)).list.take (k % 128),
      doutRoom := some 0 } = { s with
        blkCnt := BitVec.ofNat 26 (blockCount s.len.toNat),
        blkIdx := BitVec.ofNat 26 (k / 128),
        blk := blockOf (s.din.take s.len.toNat) s.key r dir (k / 128),
        sk := subkey s.key r dir (r.val - 1),
        din := s.din.drop (min s.len.toNat (128 * (k / 128 + 1))),
        dout := s.dout ++ (transformedBlocks (s.din.take s.len.toNat) s.key r dir (k / 128 + 1)).take k,
        doutRoom := some 0,
        busy := true,
        cur := some ⟨i, .writing, k % 128, n⟩ } := by
  have htake : (transformedBlocks (s.din.take s.len.toNat) s.key r dir (k / 128 + 1)).take k =
      transformedBlocks (s.din.take s.len.toNat) s.key r dir (k / 128) ++
        (blockOf (s.din.take s.len.toNat) s.key r dir (k / 128)).list.take (k % 128) :=
    take_flatMap_blocks (blockOf (s.din.take s.len.toNat) s.key r dir) (by omega)
  simp only [afterFullBlocks, afterBlocks, waitAt, htake, List.drop_drop, min_add_avail, List.append_assoc]

end

/-! ### A stream command reaches a block -/

theorem roomAfter_held {s : State} {k : Nat} (h : s.doutRoom = some k) :
    s.roomAfter (128 * (k / 128)) = some (k % 128) := by
  simp only [State.roomAfter, h, Option.map_some, Option.some.injEq]; omega

theorem hasRoom_of_some {s : State} {k m : Nat} (h : s.doutRoom = some k) (hm : m ≤ k) : s.hasRoom m = true := by
  simp [State.hasRoom, h, hm]

section
variable (r : RoundCount) (s : State) (q : Nat)

/-- SENC reaches its block `q` once the blocks before are offered and their output is accepted. -/
theorem exec_senc_reaches (hq : q < blockCount s.len.toNat) (hd : 128 * q ≤ s.din.length)
    (hr : s.hasRoom (128 * q) = true) :
    exec (.senc (BitVec.ofNat 4 r.val)) s = .next ((sencRead (.senc (BitVec.ofNat 4 r.val)) r 0
      (afterFullBlocks s r .encrypt q)).andThen
        (sencLoop (.senc (BitVec.ofNat 4 r.val)) r (blockCount s.len.toNat - (q + 1)))).close := by
  have hsplit : blockCount s.len.toNat = q + (blockCount s.len.toNat - (q + 1) + 1) := by omega
  rw [exec, execSenc, withRounds_legal, sencRun, blocksLeft_startStream, hsplit, sencLoop_add,
    sencLoop_served _ _ _ _ hq.le (by omega) hr, goOn_andThen, sencLoop, ← hsplit]
  rfl

/-- SDEC reaches its block `q`, a full one, under the same conditions. -/
theorem exec_sdec_reaches (hq : 128 * (q + 1) ≤ s.len.toNat) (hd : 128 * q ≤ s.din.length)
    (hr : s.hasRoom (128 * q) = true) :
    exec (.sdec (BitVec.ofNat 4 r.val)) s = .next ((sdecRead (.sdec (BitVec.ofNat 4 r.val)) r 0
      (afterFullBlocks s r .decrypt q)).andThen
        (sdecLoop (.sdec (BitVec.ofNat 4 r.val)) r (blockCount s.len.toNat - (q + 1)))).close := by
  have hbc : q < blockCount s.len.toNat := by unfold blockCount; omega
  have hsplit : blockCount s.len.toNat = q + (blockCount s.len.toNat - (q + 1) + 1) := by omega
  have hfull : ¬ avail s.len.toNat q < 128 := by unfold avail; omega
  rw [exec, execSdec, withRounds_legal, sdecRun, blocksLeft_startStream, hsplit, sdecLoop_add,
    sdecLoop_served _ _ _ _ (by omega) hd hr, goOn_andThen, sdecLoop, ← hsplit, sdecBody,
    availNow_afterBlocks _ _ _ _ _ hbc.le, if_neg hfull]
  rfl

end

theorem availNow_afterFullBlocks (s : State) (r : RoundCount) (dir : Direction) (q : Nat)
    (hq : q ≤ blockCount s.len.toNat) : availNow (afterFullBlocks s r dir q) = avail s.len.toNat q :=
  availNow_afterBlocks s r dir q _ hq

theorem length_din_afterFullBlocks (s : State) (r : RoundCount) (dir : Direction) (q : Nat) :
    (afterFullBlocks s r dir q).din.length = s.din.length - min s.len.toNat (128 * q) := List.length_drop

theorem doutRoom_afterFullBlocks (s : State) (r : RoundCount) (dir : Direction) (q : Nat) :
    (afterFullBlocks s r dir q).doutRoom = s.roomAfter (128 * q) := by
  rw [← length_transformedBlocks (s.din.take s.len.toNat) s.key r dir q]; rfl

/-- SDEC's strip length in block `q` of `c` (43_stream.md R176). -/
theorem pushLen_eq {s : State} {q c : Nat} (hidx : s.blkIdx.toNat = q) (hcnt : s.blkCnt.toNat = c) (b : Block) :
    pushLen { s with blk := b } = if q + 1 = c then stripLen b else 128 := by
  simp only [pushLen, hidx, hcnt]

/-- Settles O41: block `d / 128` is reached and starved. -/
theorem sencWaitsBetweenBlocksInOrder : Obligations.SencWaitsBetweenBlocksInOrder := by
  intro r s hd hroom
  have hq : s.din.length / 128 < blockCount s.len.toNat := by unfold blockCount; omega
  refine ⟨_, list_loaded r .encrypt s hd, ?_⟩
  rw [exec_senc_reaches r s _ hq (by omega) hroom, sencRead_starved, stop_andThen, close_stop,
    waiting_reading_eq _ _ _ _ _ hd, subkey_last_encrypt]
  · rfl
  · rw [availNow_afterFullBlocks _ _ _ _ hq.le, length_din_afterFullBlocks, avail]; omega

/-- Settles O42: block `k / 128` is reached and its output held back. -/
theorem sencHoldsInputWhileOutputWaits : Obligations.SencHoldsInputWhileOutputWaits := by
  intro r s k hk hlt hd
  have hq : k / 128 < blockCount s.len.toNat := by omega
  have hbc : 128 * (k / 128) < s.len.toNat := by unfold blockCount at hq; omega
  have hav := availNow_afterFullBlocks s r .encrypt (k / 128) hq.le
  have hout : (streamEnc (s.din.take s.len.toNat) s.key r).take k =
      (transformedBlocks (s.din.take s.len.toNat) s.key r .encrypt (k / 128 + 1)).take k := by
    unfold streamEnc transformedBlocks
    rw [take_flatMap_blocks, take_flatMap_blocks]
    · omega
    · rw [List.length_take]; unfold blockCount; omega
  rw [exec_senc_reaches r s (k / 128) hq (by omega) (hasRoom_of_some hk (by omega)),
    sencRead_held _ _ _ (k % 128) (by rw [hav, length_din_afterFullBlocks, avail]; omega)
      (by rw [doutRoom_afterFullBlocks, roomAfter_held hk]) (by omega),
    stop_andThen, close_stop, hav, transform_din_afterFullBlocks, hout, ← subkey_last_encrypt]
  exact congrArg _ (waiting_writing_eq _ r .encrypt s k 0)

/-- Settles O43: block `d / 128` is reached and starved. -/
theorem sdecWaitsBetweenBlocksInOrder : Obligations.SdecWaitsBetweenBlocksInOrder := by
  intro r s hd hroom
  have hlen : s.din.length < s.len.toNat := by omega
  refine ⟨_, list_loaded r .decrypt s hlen, ?_⟩
  rw [exec_sdec_reaches r s _ (by omega) (by omega) hroom, sdecRead_starved, stop_andThen, close_stop,
    waiting_reading_eq _ _ _ _ _ hlen, subkey_last_decrypt]
  · rfl
  · rw [length_din_afterFullBlocks]; omega

/-- Settles O44: block `k / 128` is reached and its output held back. -/
theorem sdecHoldsInputWhileOutputWaits : Obligations.SdecHoldsInputWhileOutputWaits := by
  intro r s k n hk hlen hd hn hkn
  have hfull : avail s.len.toNat (k / 128) = 128 := by unfold avail; omega
  have hmin : min s.len.toNat (128 * (k / 128 + 1)) = 128 * (k / 128 + 1) := by omega
  have hblk := transform_din_afterFullBlocks r .decrypt s (k / 128)
  have hwait := waiting_writing_eq (.sdec (BitVec.ofNat 4 r.val)) r .decrypt s k n
  have hidx : (afterFullBlocks s r .decrypt (k / 128)).blkIdx.toNat = k / 128 :=
    toNat_blkIdx_afterBlocks _ _ _ _ _ (by unfold blockCount; omega)
  have hcnt : (afterFullBlocks s r .decrypt (k / 128)).blkCnt.toNat = blockCount s.len.toNat :=
    toNat_startStream_blkCnt s
  rw [hfull] at hblk hwait
  rw [exec_sdec_reaches r s (k / 128) hlen (by omega) (hasRoom_of_some hk (by omega)),
    sdecRead_held _ _ _ (k % 128) (by rw [length_din_afterFullBlocks]; omega)
      (by rw [doutRoom_afterFullBlocks, roomAfter_held hk]) (by omega)
      (by rwa [pushLen_eq hidx hcnt, hblk, ← hn]),
    stop_andThen, close_stop, pushLen_eq hidx hcnt, hblk, ← hn, ← subkey_last_decrypt s.key r, ← hmin]
  exact congrArg _ hwait

end Sys2Proof.Machine
end

section
/-! CLAIMS of 20_memory.md sections 5 and 6 (R59 (b), R63): a host that serves a waiting command later gets the state
it would have got by serving it before. Each port loop is followed to the point where the command waits: what it did
before and what it does once served are together what it does when served beforehand. -/

namespace Sys2Proof.Machine

/-- The host offers the bytes `bs` and accepts all output from now on. -/
def serve (bs : List Byte) (s : State) : State := { s with din := s.din ++ bs, doutRoom := none }

/-- If the command has ended up waiting in `t`, then a step of the served state is `t'`. -/
def CatchesUp (bs : List Byte) (t t' : State) : Prop := t.busy = true → step (serve bs t) = .next t'

theorem catchesUp_of_not_busy {bs : List Byte} {t t' : State} (h : t.busy = false) : CatchesUp bs t t' :=
  fun hb => absurd (hb.symm.trans h) (by decide)

/-- The rest of a command reads neither BUSY nor the micro-state, which it writes where it ends (log entry 12). -/
def IgnoresStatus (K : State → Flow) : Prop :=
  ∀ (s : State) (b : Bool) (c : Option Progress), (K { s with busy := b, cur := c }).close = (K s).close

/-- So two states equal up to BUSY and the micro-state, which `complete` overwrites, have the same outcome. -/
theorem IgnoresStatus.congr {K : State → Flow} (hK : IgnoresStatus K) {s t : State} (h : complete s = complete t) :
    (K s).close = (K t).close := by
  have ht : { complete s with busy := s.busy, cur := s.cur } = { complete t with busy := s.busy, cur := s.cur } := by
    rw [h]
  exact (congrArg (fun u => (K u).close) ht).trans (hK t _ _)

/-- The host accepts `n` more bytes, or holds back after `k` of them. -/
theorem hasRoom_or (s : State) (n : Nat) : s.hasRoom n = true ∨ ∃ k, s.doutRoom = some k ∧ k < n := by
  unfold State.hasRoom
  rcases s.doutRoom with _ | k
  · exact .inl rfl
  · simpa using Nat.lt_or_ge k n |>.symm

/-! ### The two port loops, each followed by the rest `K` of the command -/

theorem loadBytes_add (p : Nat → Progress) (m k j : Nat) (s : State) :
    loadBytes p (m + k) j s = (loadBytes p m j s).andThen (loadBytes p k (j + m)) := by
  induction m generalizing j s with
  | zero => rw [Nat.zero_add]; rfl
  | succ m ih =>
    rw [Nat.add_right_comm, loadBytes, loadBytes]
    rcases dinPop s with _ | ⟨b, s'⟩
    · rfl
    · simp only [ih, Nat.add_assoc, Nat.add_comm 1]

section
variable {K : State → Flow}

theorem loadBytes_ignoresStatus (hK : IgnoresStatus K) (p : Nat → Progress) (k j : Nat) :
    IgnoresStatus fun s => (loadBytes p k j s).andThen K := by
  intro s b c
  beta_reduce
  rcases Nat.lt_or_ge s.din.length k with h | h
  · rw [loadBytes_short _ _ _ _ h, loadBytes_short _ _ _ _ (by exact h)]; rfl
  · rw [loadBytes_enough _ _ _ _ h, loadBytes_enough _ _ _ _ (by exact h)]; exact hK.congr rfl

theorem emitBytes_ignoresStatus (hK : IgnoresStatus K) (p : Nat → Progress) (bs : List Byte) (j : Nat) :
    IgnoresStatus fun s => (emitBytes p bs j s).andThen K := by
  intro s b c
  beta_reduce
  rcases hasRoom_or s bs.length with h | ⟨k, hk, hlt⟩
  · rw [emitBytes_room _ _ _ _ h, emitBytes_room _ _ _ _ (by exact h)]; exact hK.congr rfl
  · rw [emitBytes_full _ _ _ _ _ hk hlt, emitBytes_full _ _ _ _ _ (by exact hk) hlt]; rfl

variable {s : State} {bs : List Byte} (hrst : s.rst = false) (hhalt : s.halt = false)
include hrst hhalt

/-- The reading loop waits with a part of its bytes loaded; resumed, it loads the others. -/
theorem loadBytes_catchesUp (p : Nat → Progress) (k j : Nat) (hK : IgnoresStatus K)
    (hres : ∀ m b d, resume (waitAt (p (j + m)) { s with blk := b, din := d, doutRoom := none }) =
      ((loadBytes p (k - m) (j + m) (waitAt (p (j + m)) { s with blk := b, din := d, doutRoom := none })).andThen
        K).close)
    (hgo : ∀ b d, CatchesUp bs (K { s with blk := b, din := d }).close
      (K (serve bs { s with blk := b, din := d })).close) :
    CatchesUp bs ((loadBytes p k j s).andThen K).close ((loadBytes p k j (serve bs s)).andThen K).close := by
  rcases Nat.lt_or_ge s.din.length k with h | h
  · intro _
    have hk : k = s.din.length + (k - s.din.length) := by omega
    rw [loadBytes_short _ _ _ _ h, stop_andThen, close_stop, step_of_busy (by exact hrst) (by exact hhalt) rfl]
    refine congrArg _ ((hres _ _ _).trans ?_)
    rw [hk, loadBytes_add, loadBytes_enough _ s.din.length j _ (by simp [serve]), goOn_andThen, ← hk]
    simp only [serve, List.take_left, List.drop_left]
    exact (loadBytes_ignoresStatus hK _ _ _).congr rfl
  · rw [loadBytes_enough _ _ _ _ h, loadBytes_enough _ _ _ _ (by simp [serve]; omega)]
    simp only [goOn_andThen, serve, List.take_append_of_le_length h, List.drop_append_of_le_length h]
    exact hgo _ _

/-- The writing loop waits with a part of its bytes pushed; resumed, it pushes the others. -/
theorem emitBytes_catchesUp (p : Nat → Progress) (l : List Byte) (j : Nat) (hK : IgnoresStatus K)
    (hres : ∀ m o d, m < l.length →
      resume (waitAt (p (j + m)) { s with dout := o, din := d, doutRoom := none }) =
      ((emitBytes p (l.drop m) (j + m) (waitAt (p (j + m)) { s with dout := o, din := d, doutRoom := none })).andThen
        K).close)
    (hgo : ∀ o n, CatchesUp bs (K { s with dout := o, doutRoom := n }).close
      (K (serve bs { s with dout := o, doutRoom := n })).close) :
    CatchesUp bs ((emitBytes p l j s).andThen K).close ((emitBytes p l j (serve bs s)).andThen K).close := by
  rw [emitBytes_room p l j (serve bs s) rfl, goOn_andThen]
  rcases hasRoom_or s l.length with h | ⟨k, hk, hlt⟩
  · rw [emitBytes_room _ _ _ _ h]; exact hgo _ _
  · intro _
    rw [emitBytes_full _ _ _ _ _ hk hlt, stop_andThen, close_stop, step_of_busy (by exact hrst) (by exact hhalt) rfl]
    refine congrArg _ ((hres _ _ _ hlt).trans ?_)
    rw [emitBytes_room _ _ _ _ rfl, goOn_andThen]
    simp only [waitAt, List.append_assoc, List.take_append_drop]
    exact hK.congr rfl

theorem emitBlk_catchesUp (p : Nat → Progress) (n j : Nat) (hK : IgnoresStatus K)
    (hres : ∀ m o d, resume (waitAt (p (j + m)) { s with dout := o, din := d, doutRoom := none }) =
      ((emitBlk p n (j + m) (waitAt (p (j + m)) { s with dout := o, din := d, doutRoom := none })).andThen K).close)
    (hgo : ∀ o n, CatchesUp bs (K { s with dout := o, doutRoom := n }).close
      (K (serve bs { s with dout := o, doutRoom := n })).close) :
    CatchesUp bs ((emitBlk p n j s).andThen K).close ((emitBlk p n j (serve bs s)).andThen K).close := by
  refine emitBytes_catchesUp hrst hhalt p _ j hK (fun m o d _ => ?_) hgo
  rw [hres, emitBlk, List.drop_drop]; rfl

end

/-! ### SENC and SDEC: one block, and the loop again -/

section
variable {i : Instr} {r : RoundCount} {K : State → Flow}

theorem nextThen_ignoresStatus (hK : IgnoresStatus K) : IgnoresStatus (nextThen K) :=
  fun s b c => hK { s with blkIdx := s.blkIdx + 1 } b c

theorem sencTransform_ignoresStatus (hK : IgnoresStatus K) :
    IgnoresStatus fun s => (sencTransform i r s).andThen K := by
  intro s b c
  simp only [sencTransform, sencWrite, andThen_assoc, blockTransform_eq]
  exact (emitBytes_ignoresStatus (nextThen_ignoresStatus hK) _ _ _).congr rfl

theorem sdecTransform_ignoresStatus (hK : IgnoresStatus K) :
    IgnoresStatus fun s => (sdecTransform i r s).andThen K := by
  intro s b c
  simp only [sdecTransform, sdecWrite, andThen_assoc, blockTransform_eq]
  exact (emitBytes_ignoresStatus (nextThen_ignoresStatus hK) _ _ _).congr rfl

theorem sencLoop_ignoresStatus (k : Nat) : IgnoresStatus (sencLoop i r k) := by
  induction k with
  | zero => exact fun _ _ _ => rfl
  | succ k ih =>
    intro s b c
    simp only [sencLoop, sencRead, andThen_assoc]
    exact (loadBytes_ignoresStatus (sencTransform_ignoresStatus ih) _ _ _).congr rfl

theorem sdecLoop_ignoresStatus (k : Nat) : IgnoresStatus (sdecLoop i r k) := by
  induction k with
  | zero => exact fun _ _ _ => rfl
  | succ k ih =>
    intro s b c
    have ha : availNow { s with busy := b, cur := c } = availNow s := rfl
    rw [sdecLoop, sdecLoop, sdecBody, sdecBody, ha]
    split
    · rfl
    · simp only [sdecRead, andThen_assoc]
      exact (loadBytes_ignoresStatus (sdecTransform_ignoresStatus ih) _ _ _).congr rfl

theorem sencRun_ignoresStatus : IgnoresStatus (sencRun i r) := fun s => sencLoop_ignoresStatus (blocksLeft s) s

theorem sdecRun_ignoresStatus : IgnoresStatus (sdecRun i r) := fun s => sdecLoop_ignoresStatus (blocksLeft s) s

end

theorem Flow.Sat.andThen_congr {P Q : State → Prop} {f : Flow} {k k' : State → Flow} (hf : f.Sat P Q)
    (h : ∀ s, P s → k s = k' s) : f.andThen k = f.andThen k' := by
  cases f with
  | goOn s => exact h s hf
  | stop s => rfl

section
variable {i : Instr} {r : RoundCount} {s : State} {k : Nat} (h : blocksLeft s = k + 1)
include h

theorem blocksLeft_nextBlock : blocksLeft { s with blkIdx := s.blkIdx + 1 } = k := by
  unfold blocksLeft at *
  have hnext : (s.blkIdx + 1).toNat = s.blkIdx.toNat + 1 := by
    rw [BitVec.toNat_add]
    exact Nat.mod_eq_of_lt (by simp; omega)
  simp only [hnext]; omega

theorem emitBlk_nextBlock_blocksLeft (p : Nat → Progress) (n j : Nat) :
    ((emitBlk p n j s).andThen nextBlock).Sat (fun t => blocksLeft t = k) fun _ => True :=
  (emitBlk_sat (P := fun t => blocksLeft t = k + 1) p n j s h fun _ _ => trivial).andThen fun _ => blocksLeft_nextBlock

theorem sencRead_blocksLeft (j : Nat) : (sencRead i r j s).Sat (fun t => blocksLeft t = k) fun _ => True := by
  refine (loadBytes_sat (P := fun t => blocksLeft t = k + 1) _ _ j s h fun _ => trivial).andThen fun t ht => ?_
  rw [sencTransform, blockTransform_eq]
  exact emitBlk_nextBlock_blocksLeft (by exact ht) _ _ _

theorem sdecRead_blocksLeft (j : Nat) : (sdecRead i r j s).Sat (fun t => blocksLeft t = k) fun _ => True := by
  refine (loadBytes_sat (P := fun t => blocksLeft t = k + 1) _ _ j s h fun _ => trivial).andThen fun t ht => ?_
  rw [sdecTransform, blockTransform_eq]
  exact emitBlk_nextBlock_blocksLeft (by exact ht) _ _ _

/-- A turn of SENC's loop, as its reading loop and what follows it. -/
theorem sencRun_succ : sencRun i r s =
    (loadBytes (fun j => ⟨i, .reading, j, 0⟩) (availNow s) 0 s).andThen (sencAfterRead i r) := by
  rw [← Nat.sub_zero (availNow s), ← sencRead_andThen_run, sencRun, h, sencLoop]
  exact (sencRead_blocksLeft h 0).andThen_congr fun t ht => by rw [sencRun, ht]

/-- A turn of SDEC's loop, past the length check. -/
theorem sdecRun_succ (ha : ¬ availNow s < 128) : sdecRun i r s =
    (loadBytes (fun j => ⟨i, .reading, j, 0⟩) 128 0 s).andThen (sdecAfterRead i r) := by
  rw [← Nat.sub_zero 128, ← sdecRead_andThen_run, sdecRun, h, sdecLoop, sdecBody, if_neg ha]
  exact (sdecRead_blocksLeft h 0).andThen_congr fun t ht => by rw [sdecRun, ht]

/-- A turn of SDEC's loop that fails the length check. -/
theorem sdecRun_short (ha : availNow s < 128) :
    sdecRun i r s = .stop (raise .format (BitVec.ofNat 32 (availNow s)) s) := by
  rw [sdecRun, h, sdecLoop, sdecBody, if_pos ha, stop_andThen]

end

theorem sencRun_zero (i : Instr) (r : RoundCount) {s : State} (h : blocksLeft s = 0) : sencRun i r s = .goOn s := by
  rw [sencRun, h, sencLoop]

theorem sdecRun_zero (i : Instr) (r : RoundCount) {s : State} (h : blocksLeft s = 0) : sdecRun i r s = .goOn s := by
  rw [sdecRun, h, sdecLoop]

/-- `for j = a, ..., 127: BLK[j] <- 0x00`, after the input of a block (43_stream.md R175). -/
def zeroRest (s : State) : State := { s with blk := zeroFrom (availNow s) s.blk }

theorem sencAfterRead_eq (i : Instr) (r : RoundCount) (s : State) : sencAfterRead i r s =
    (emitBlk (fun j => ⟨i, .writing, j, 0⟩) 128 0 (blockTransform .encrypt r (zeroRest s))).andThen
      (nextThen (sencRun i r)) :=
  sencWrite_andThen_run _ _ _ _

theorem sdecAfterRead_eq (i : Instr) (r : RoundCount) (s : State) : sdecAfterRead i r s =
    (emitBlk (fun j => ⟨i, .writing, j, pushLen (blockTransform .decrypt r s)⟩)
      (pushLen (blockTransform .decrypt r s)) 0 (blockTransform .decrypt r s)).andThen (nextThen (sdecRun i r)) :=
  sdecWrite_andThen_run _ _ _ _ _

/-! Serving is on the host's side of the ports only. -/

theorem zeroRest_serve (bs : List Byte) (s : State) : zeroRest (serve bs s) = serve bs (zeroRest s) := rfl

theorem pushLen_serve (bs : List Byte) (s : State) : pushLen (serve bs s) = pushLen s := rfl

theorem blockTransform_serve (dir : Direction) (r : RoundCount) (bs : List Byte) (s : State) :
    blockTransform dir r (serve bs s) = serve bs (blockTransform dir r s) := by
  rw [blockTransform_eq, blockTransform_eq]; rfl

/-! ### The loops of SENC and SDEC -/

theorem sencRun_catchesUp (rc : RoundCount) (bs : List Byte) (k : Nat) {s : State} (hrst : s.rst = false)
    (hhalt : s.halt = false) (h : blocksLeft s = k) :
    CatchesUp bs (sencRun (.senc (BitVec.ofNat 4 rc.val)) rc s).close
      (sencRun (.senc (BitVec.ofNat 4 rc.val)) rc (serve bs s)).close := by
  induction k generalizing s with
  | zero => rw [sencRun_zero _ _ h]; exact catchesUp_of_not_busy rfl
  | succ k ih =>
    rw [sencRun_succ h, sencRun_succ (s := serve bs s) h]
    refine loadBytes_catchesUp hrst hhalt _ _ 0 (sencTransform_ignoresStatus sencRun_ignoresStatus)
      (fun m b d => ?_) fun b d => ?_
    · rw [Nat.zero_add]; exact resume_senc_reading rfl
    · rw [sencAfterRead_eq, sencAfterRead_eq, zeroRest_serve, blockTransform_serve]
      refine emitBlk_catchesUp (by rwa [blockTransform_eq]) (by rwa [blockTransform_eq]) _ _ 0
        (nextThen_ignoresStatus sencRun_ignoresStatus) (fun m o d => ?_) fun o n => ?_
      · rw [Nat.zero_add]; exact resume_senc_writing rfl
      · rw [blockTransform_eq]; exact ih hrst hhalt (blocksLeft_nextBlock h)

theorem sdecRun_catchesUp (rc : RoundCount) (bs : List Byte) (k : Nat) {s : State} (hrst : s.rst = false)
    (hhalt : s.halt = false) (h : blocksLeft s = k) :
    CatchesUp bs (sdecRun (.sdec (BitVec.ofNat 4 rc.val)) rc s).close
      (sdecRun (.sdec (BitVec.ofNat 4 rc.val)) rc (serve bs s)).close := by
  induction k generalizing s with
  | zero => rw [sdecRun_zero _ _ h]; exact catchesUp_of_not_busy rfl
  | succ k ih =>
    by_cases ha : availNow s < 128
    · rw [sdecRun_short h ha]; exact catchesUp_of_not_busy rfl
    rw [sdecRun_succ h ha, sdecRun_succ (s := serve bs s) h ha]
    refine loadBytes_catchesUp hrst hhalt _ _ 0 (sdecTransform_ignoresStatus sdecRun_ignoresStatus)
      (fun m b d => ?_) fun b d => ?_
    · rw [Nat.zero_add]; exact resume_sdec_reading rfl
    · rw [sdecAfterRead_eq, sdecAfterRead_eq, blockTransform_serve, pushLen_serve]
      refine emitBlk_catchesUp (by rwa [blockTransform_eq]) (by rwa [blockTransform_eq]) _ _ 0
        (nextThen_ignoresStatus sdecRun_ignoresStatus) (fun m o d => ?_) fun o n => ?_
      · rw [Nat.zero_add]; exact resume_sdec_writing rfl
      · rw [blockTransform_eq]; exact ih hrst hhalt (blocksLeft_nextBlock h)

/-! ### The commands that wait -/

/-- The round check: an illegal count ends the command, and a legal one leaves it to the body. -/
theorem withRounds_catchesUp {bs : List Byte} {r : BitVec 4} {i : Instr} {s s' : State} {f g : RoundCount → State}
    (hfg : ∀ rc : RoundCount, r = BitVec.ofNat 4 rc.val → CatchesUp bs (f rc) (g rc)) :
    CatchesUp bs (withRounds r i s f) (withRounds r i s' g) := by
  rcases rounds_cases r with ⟨rc, rfl⟩ | hr
  · rw [withRounds_legal, withRounds_legal]; exact hfg rc rfl
  · rw [withRounds_illegal _ _ _ _ hr]; exact catchesUp_of_not_busy rfl

theorem goOn_ignoresStatus : IgnoresStatus .goOn := fun _ _ _ => rfl

section
variable {s : State} (bs : List Byte) (hrst : s.rst = false) (hhalt : s.halt = false)
include hrst hhalt

theorem ldblk_catchesUp : CatchesUp bs (ldblkFrom 0 s).close (ldblkFrom 0 (serve bs s)).close := by
  rw [← andThen_goOn (ldblkFrom 0 s), ← andThen_goOn (ldblkFrom 0 (serve bs s))]
  refine loadBytes_catchesUp hrst hhalt _ _ 0 goOn_ignoresStatus (fun m b d => ?_) fun _ _ => catchesUp_of_not_busy rfl
  rw [Nat.zero_add, andThen_goOn]; exact resume_ldblk rfl

theorem stblk_catchesUp : CatchesUp bs (stblkFrom 0 s).close (stblkFrom 0 (serve bs s)).close := by
  rw [← andThen_goOn (stblkFrom 0 s), ← andThen_goOn (stblkFrom 0 (serve bs s))]
  refine emitBlk_catchesUp hrst hhalt _ _ 0 goOn_ignoresStatus (fun m o d => ?_) fun _ _ => catchesUp_of_not_busy rfl
  rw [Nat.zero_add, andThen_goOn]; exact resume_stblk rfl

theorem stsk_catchesUp : CatchesUp bs (stskPush s).close (stskPush (serve bs s)).close := by
  rw [← andThen_goOn (stskPush s), ← andThen_goOn (stskPush (serve bs s))]
  refine emitBytes_catchesUp hrst hhalt _ _ 0 goOn_ignoresStatus (fun m o d hm => ?_) fun _ _ =>
    catchesUp_of_not_busy rfl
  obtain rfl : m = 0 := Nat.lt_one_iff.1 hm
  rw [andThen_goOn]; exact resume_stsk rfl

theorem exec_catchesUp {i : Instr} {t t' : State} (h : exec i s = .next t) (h' : exec i (serve bs s) = .next t') :
    CatchesUp bs t t' := by
  cases i with
  | nop | kgen n | round | swap | lenl n | lenh b => cases h; exact catchesUp_of_not_busy rfl
  | benc r | bdec r =>
    cases h
    exact catchesUp_of_not_busy (withRounds_sat (P := (·.busy = false)) (fun _ => rfl) fun _ _ => rfl)
  | ldblk => cases h; cases h'; exact ldblk_catchesUp bs hrst hhalt
  | stblk => cases h; cases h'; exact stblk_catchesUp bs hrst hhalt
  | stsk => cases h; cases h'; exact stsk_catchesUp bs hrst hhalt
  | senc r =>
    cases h; cases h'
    refine withRounds_catchesUp fun rc hr => ?_
    subst hr
    exact sencRun_catchesUp rc bs _ (s := startStream s) hrst hhalt rfl
  | sdec r =>
    cases h; cases h'
    refine withRounds_catchesUp fun rc hr => ?_
    subst hr
    exact sdecRun_catchesUp rc bs _ (s := startStream s) hrst hhalt rfl

end

/-- Settles O45, command by command. -/
theorem slowHostGetsTheSameResult : Obligations.SlowHostGetsTheSameResult := by
  intro i s t bs hrst hhalt h hb
  obtain ⟨t', h'⟩ := exec_answers_next i (serve bs s)
  exact (exec_catchesUp bs hrst hhalt h h' hb).trans h'.symm

end Sys2Proof.Machine
end

section
/-! SUPPORT. The opcode table (30_encoding.md R84) and the decoder: what a row says of the words with its opcode. -/

namespace Sys2Proof

/-- The format of the command's row (30_encoding.md R84). -/
def Instr.format : Instr → Format
  | .nop | .round | .swap | .ldblk | .stblk | .stsk => .z
  | .kgen _ | .lenl _ => .n
  | .lenh _ => .h
  | .benc _ | .bdec _ | .senc _ | .sdec _ => .r

/-- The word `w` with the must-be-zero bits of a format cleared (30_encoding.md R82): its opcode and its operand. -/
def Format.cleared (w : Word) : Format → Word
  | .z => fieldsWord (opField w) 0 0
  | .n => fieldsWord (opField w) 0 (immField w)
  | .h => fieldsWord (opField w) 0 ((immHField w).setWidth 24)
  | .r => fieldsWord (opField w) (rfField w) 0

/-- A word that passes step 2 of R85 has no bit to clear. -/
theorem cleared_eq_of_mask {w : Word} {f : Format} (h : w &&& f.mask = opPattern (opField w)) : f.cleared w = w := by
  apply BitVec.eq_of_toNat_eq
  cases f with
  | z =>
    rw [maskZ_iff] at h
    rw [Format.cleared, toNat_fieldsWord, toNat_opField]; simp; omega
  | n =>
    rw [maskN_iff] at h
    rw [Format.cleared, toNat_fieldsWord, toNat_opField, toNat_immField]; simp; omega
  | h =>
    rw [maskH_iff] at h
    rw [Format.cleared, toNat_fieldsWord, toNat_opField, BitVec.toNat_setWidth, toNat_immHField]; simp; omega
  | r =>
    rw [maskR_iff] at h
    rw [Format.cleared, toNat_fieldsWord, toNat_opField, toNat_rfField]; simp; omega

/-! ### The table -/

/-- The literals of R84 are the format's mask and the opcode's pattern, and every mask fixes the opcode. -/
theorem opcodeTable_literals : ∀ row ∈ opcodeTable,
    row.mask = row.format.mask ∧ row.pattern = opPattern (opField row.pattern) ∧
      opField row.mask = BitVec.allOnes 4 := by decide

/-- No two rows have the same opcode. -/
theorem opcodeTable_injective : ∀ a ∈ opcodeTable, ∀ b ∈ opcodeTable,
    opField a.pattern = opField b.pattern → a = b := by decide

/-- Every opcode is reserved (30_encoding.md R86) or has a row. -/
theorem opcode_reserved_or_row : ∀ op : BitVec 4,
    (op.toNat = 0x0 ∨ op.toNat = 0xE ∨ op.toNat = 0xF) ∨ ∃ row ∈ opcodeTable, op = opField row.pattern := by decide

theorem opField_and (v w : Word) : opField (v &&& w) = opField v &&& opField w := by
  simp [opField, BitVec.extractLsb'_and]

/-- A word that matches a row has the row's opcode. -/
theorem opField_of_match {row : OpcodeRow} (hrow : row ∈ opcodeTable) {w : Word}
    (h : w &&& row.mask = row.pattern) : opField w = opField row.pattern := by
  obtain ⟨-, -, hones⟩ := opcodeTable_literals row hrow
  rw [← h, opField_and, hones, BitVec.and_allOnes]

/-! ### The decoder on the table -/

theorem spell_eq_ok_iff {w : Word} {f : Format} {i j : Instr} :
    spell w f i = .ok j ↔ w &&& f.mask = opPattern (opField w) ∧ i = j := by
  unfold spell
  split <;> simp [*]

/-- Step 1 of R85. -/
theorem decode_reserved {w : Word} (h : (opField w).toNat = 0x0 ∨ (opField w).toNat = 0xE ∨ (opField w).toNat = 0xF) :
    decode w = .error .reservedOp := by
  rcases h with h | h | h <;> simp [decode, h]

/-- Step 2 of R85 spells a command of the row that has the word's opcode, its operand the word's field. -/
theorem decode_eq_spell {row : OpcodeRow} (hrow : row ∈ opcodeTable) {w : Word} (hop : opField w = opField row.pattern) :
    ∃ i, decode w = spell w row.format i ∧ i.mnemonic = row.mnemonic ∧ i.format = row.format ∧
      encode i = row.format.cleared w := by
  fin_cases hrow <;> (simp only [decode, Format.cleared, hop]; exact ⟨_, rfl, rfl, rfl, rfl⟩)

/-- What step 2 of R85 asks of the word, by the row's literals. -/
theorem mask_iff_match {row : OpcodeRow} (hrow : row ∈ opcodeTable) {w : Word} (hop : opField w = opField row.pattern) :
    w &&& row.format.mask = opPattern (opField w) ↔ w &&& row.mask = row.pattern := by
  obtain ⟨hmask, hpattern, -⟩ := opcodeTable_literals row hrow
  rw [hop, ← hmask, ← hpattern]

theorem decode_of_match {row : OpcodeRow} (hrow : row ∈ opcodeTable) {w : Word} (h : w &&& row.mask = row.pattern) :
    ∃ i, decode w = .ok i ∧ i.mnemonic = row.mnemonic ∧ i.format = row.format := by
  have hop := opField_of_match hrow h
  obtain ⟨i, hd, hm, hf, -⟩ := decode_eq_spell hrow hop
  exact ⟨i, hd.trans (if_pos ((mask_iff_match hrow hop).2 h)), hm, hf⟩

theorem decode_of_mismatch {row : OpcodeRow} (hrow : row ∈ opcodeTable) {w : Word}
    (hop : opField w = opField row.pattern) (h : w &&& row.mask ≠ row.pattern) : decode w = .error .mustBeZero := by
  obtain ⟨i, hd, -, -, -⟩ := decode_eq_spell hrow hop
  exact hd.trans (if_neg (mt (mask_iff_match hrow hop).1 h))

/-- A word that decodes is the word of its command, and matches the row of its command's name. -/
theorem decode_eq_ok {w : Word} {i : Instr} (h : decode w = .ok i) :
    encode i = w ∧ ∃ row ∈ opcodeTable, row.mnemonic = i.mnemonic ∧ w &&& row.mask = row.pattern := by
  rcases opcode_reserved_or_row (opField w) with hr | ⟨row, hrow, hop⟩
  · rw [decode_reserved hr] at h; cases h
  · obtain ⟨j, hd, hm, -, he⟩ := decode_eq_spell hrow hop
    rw [hd, spell_eq_ok_iff] at h
    obtain ⟨hmask, rfl⟩ := h
    exact ⟨he.trans (cleared_eq_of_mask hmask), row, hrow, hm.symm, (mask_iff_match hrow hop).1 hmask⟩

end Sys2Proof
end

section
/-! CLAIMS of 30_encoding.md sections 1 to 3: the decoder and the encoder (R81 to R84, R88, R89). -/

namespace Sys2Proof

/-- Settles O1, by the encoder's cases. -/
theorem decodeOfEncode : Obligations.DecodeOfEncode := decode_encode

/-- Settles O2: the operand that step 2 of R85 reads is all that the must-be-zero bits leave of the word. -/
theorem encodeOfDecode : Obligations.EncodeOfDecode := fun _ _ h => (decode_eq_ok h).1

/-- Settles O3: a word has at most one row, the one with its opcode. -/
theorem wordSpellsRowByMaskAndMatch : Obligations.WordSpellsRowByMaskAndMatch := by
  refine ⟨fun w m => ⟨?_, ?_⟩, fun w a ha b hb hwa hwb => ?_⟩
  · rintro ⟨i, hd, rfl⟩
    exact (decode_eq_ok hd).2
  · rintro ⟨row, hrow, rfl, h⟩
    obtain ⟨i, hd, hm, -⟩ := decode_of_match hrow h
    exact ⟨i, hd, hm⟩
  · exact opcodeTable_injective a ha b hb ((opField_of_match ha hwa).symm.trans (opField_of_match hb hwb))

/-- Settles O4: the word is that of the command, whose fields are its operands. -/
theorem operandIsNaturalOfField : Obligations.OperandIsNaturalOfField := by
  intro w i h
  obtain rfl := encodeOfDecode w i h
  cases i with
  | nop | round | swap | ldblk | stblk | stsk => trivial
  | kgen n | lenl n => simp only [← toNat_immField, encode, immField_fieldsWord]
  | lenh b => simp only [← toNat_immHField, encode, immHField_fieldsWord]
  | benc r | bdec r | senc r | sdec r => simp only [← toNat_rfField, encode, rfField_fieldsWord]

/-- Settles O6: the printed words are the encoder's. -/
theorem workedEncodingsDecode : Obligations.WorkedEncodingsDecode :=
  ⟨decode_encode (.kgen 1), decode_encode .round, decode_encode (.benc 3), decode_encode (.lenl 300),
    decode_encode (.lenh 1), decode_encode (.senc 8), decode_encode (.sdec 1), decode_encode .nop, decode_encode .swap,
    decode_encode (.bdec 3), decode_encode .ldblk, decode_encode .stblk, decode_encode .stsk⟩

end Sys2Proof
end

section
/-! CLAIMS of 30_encoding.md section 3: the decode procedure (R85). -/

namespace Sys2Proof.Machine

/-- Step 3 of R85, by the command's word: only a format-R command can have an illegal operand. -/
theorem wellFormed_iff (i : Instr) : i.wellFormed = true ↔
    (i.format = .r → 1 ≤ (encode i).toNat / 2 ^ 24 % 2 ^ 4 ∧ (encode i).toNat / 2 ^ 24 % 2 ^ 4 ≤ 8) := by
  rw [← toNat_rfField]
  cases i with
  | nop | round | swap | ldblk | stblk | stsk | kgen n | lenl n | lenh b => simp [Instr.wellFormed, Instr.format]
  | benc r | bdec r | senc r | sdec r => simp [Instr.wellFormed, Instr.format, encode, legalRounds_iff]

/-- A command with an illegal operand raises ROUNDS_RANGE with its word (60_exceptions.md R222). -/
theorem exec_illFormed {i : Instr} (h : ¬ i.wellFormed = true) (s : State) :
    exec i s = .next (raise .roundsRange (encode i) s) := by
  cases i with
  | nop | round | swap | ldblk | stblk | stsk | kgen n | lenl n | lenh b => exact absurd rfl h
  | benc r | bdec r | senc r | sdec r =>
    rw [Instr.wellFormed, legalRounds_iff] at h
    exact congrArg _ (withRounds_illegal r _ s _ (by omega))

/-- A word that spells no command raises ILLEGAL_CMD with the word (60_exceptions.md R221). -/
theorem execWord_error {w : Word} {e : IllegalWord} (h : decode w = .error e) (s : State) :
    execWord w s = .next (raise .illegalCmd w s) := by
  rw [execWord, h]

theorem execWord_ok {w : Word} {i : Instr} (h : decode w = .ok i) (s : State) : execWord w s = exec i s := by
  rw [execWord, h]

/-- Settles O5, step by step of R85. -/
theorem stepFollowsDecodeProcedure : Obligations.StepFollowsDecodeProcedure := by
  intro s w ws hr hidle hc
  have hstep : step s = execWord w (accept ws s) := step_of_ready_cons (by simp [cmdReady, hr, hidle]) hc
  rw [hstep]
  refine ⟨fun hop => ?_, fun row hrow hop => ⟨fun h => ?_, fun h hformat hrange => ?_, fun h hlegal => ?_⟩⟩
  · rw [← toNat_opField] at hop
    exact execWord_error (decode_reserved hop) _
  · rw [← toNat_opField, ← toNat_opField, BitVec.toNat_inj] at hop
    exact execWord_error (decode_of_mismatch hrow hop.symm h) _
  · obtain ⟨i, hd, -, hf⟩ := decode_of_match hrow h
    obtain rfl := encodeOfDecode w i hd
    have hill : ¬ i.wellFormed = true := fun hwf => by
      have hlegal := (wellFormed_iff i).1 hwf (hf.trans hformat)
      omega
    rw [execWord_ok hd]
    exact exec_illFormed hill _
  · obtain ⟨i, hd, hm, hf⟩ := decode_of_match hrow h
    obtain rfl := encodeOfDecode w i hd
    exact ⟨i, (wellFormed_iff i).2 (hf ▸ hlegal), rfl, hm, execWord_ok hd _⟩

end Sys2Proof.Machine
end

section
/-! CLAIMS of 30_encoding.md section 4: the pseudo-instructions (R90). -/

namespace Sys2Proof.Machine

/-- After a command that completes, the next one runs (44_datamove_system.md R204). -/
theorem execAll_cons {i : Instr} {s t : State} (h : exec i s = .next t) (hh : t.halt = false) (hb : t.busy = false)
    (is : List Instr) : execAll (i :: is) s = execAll is t := by
  simp [execAll, h, hh, hb]

/-! ### The two parts of a length -/

theorem toNat_extract_low (v : BitVec 32) : (v.extractLsb' 0 24).toNat = v.toNat % 2 ^ 24 :=
  toNat_immField v

theorem toNat_extract_high (v : BitVec 32) : (v.extractLsb' 24 8).toNat = v.toNat / 2 ^ 24 := by
  rw [BitVec.extractLsb'_toNat, Nat.shiftRight_eq_div_pow]; omega

theorem toNat_lenLow (n : BitVec 24) : (lenLow n).toNat = n.toNat := by
  rw [lenLow, operandN, BitVec.toNat_ofNat]; omega

theorem toNat_lenHigh (h : BitVec 8) (len : BitVec 32) :
    (lenHigh h len).toNat = h.toNat * 2 ^ 24 + len.toNat % 2 ^ 24 := by
  rw [lenHigh, operandH, BitVec.toNat_ofNat]; omega

/-- LENL alone loads a length below 2^24. -/
theorem lenLow_extract {v : BitVec 32} (h : v.toNat < 2 ^ 24) : lenLow (v.extractLsb' 0 24) = v := by
  apply BitVec.eq_of_toNat_eq
  rw [toNat_lenLow, toNat_extract_low]; omega

/-- LENL and then LENH load any length. -/
theorem lenHigh_lenLow_extract (v : BitVec 32) : lenHigh (v.extractLsb' 24 8) (lenLow (v.extractLsb' 0 24)) = v := by
  apply BitVec.eq_of_toNat_eq
  rw [toNat_lenHigh, toNat_lenLow, toNat_extract_low, toNat_extract_high]; omega

/-! ### The expansions and what they leave -/

theorem expand_setlen (v : BitVec 32) : (Pseudo.setlen v).expand =
    if v.toNat < 2 ^ 24 then [.lenl (BitVec.ofNat 24 v.toNat)]
    else [.lenl (BitVec.ofNat 24 (v.toNat % 2 ^ 24)), .lenh (BitVec.ofNat 8 (v.toNat / 2 ^ 24))] := by
  have hlow : v.extractLsb' 0 24 = BitVec.ofNat 24 (v.toNat % 2 ^ 24) := by
    rw [← toNat_extract_low, BitVec.ofNat_toNat, BitVec.setWidth_eq]
  have hhigh : v.extractLsb' 24 8 = BitVec.ofNat 8 (v.toNat / 2 ^ 24) := by
    rw [← toNat_extract_high, BitVec.ofNat_toNat, BitVec.setWidth_eq]
  rw [Pseudo.expand, hlow, hhigh]
  split
  case isTrue h => rw [Nat.mod_eq_of_lt h]
  case isFalse => rfl

section
variable {s : State} (hs : s.halt = false)
include hs

theorem execAll_lenl (n : BitVec 24) (is : List Instr) : execAll (.lenl n :: is) s =
    execAll is { s with len := lenLow n, busy := false, cur := none } := execAll_cons rfl (by exact hs) rfl is

theorem execAll_lenh (h : BitVec 8) (is : List Instr) : execAll (.lenh h :: is) s =
    execAll is { s with len := lenHigh h s.len, busy := false, cur := none } := execAll_cons rfl (by exact hs) rfl is

theorem execAll_setlen (v : BitVec 32) :
    execAll (Pseudo.setlen v).expand s = .next { s with len := v, busy := false, cur := none } := by
  rw [Pseudo.expand]
  split
  case isTrue h => rw [execAll_lenl hs, lenLow_extract h, execAll]
  case isFalse => rw [execAll_lenl hs, execAll_lenh (by exact hs), lenHigh_lenLow_extract, execAll]

theorem execAll_kgen (n : Nat) (hn : n < 2 ^ 24) : execAll [.kgen (BitVec.ofNat 24 n)] s =
    .next { s with sk := rotl8 s.key n, busy := false, cur := none } := by
  rw [execAll_cons (i := .kgen _) rfl hs rfl, operandN, BitVec.toNat_ofNat, Nat.mod_eq_of_lt hn]
  rfl

end

/-- Settles O7: the expansions as defined, then the commands of each, one after the other. -/
theorem pseudoInstructionsLoadTheirValue : Obligations.PseudoInstructionsLoadTheirValue := by
  refine ⟨expand_setlen, fun _ => rfl, fun _ _ => rfl, fun v s hs => execAll_setlen hs v, fun i s hs => ?_,
    fun r i s hs => ?_⟩
  · exact execAll_kgen hs (i.val + 1) (by omega)
  · exact execAll_kgen hs (r.val - i.val) (by have := r.max; omega)

end Sys2Proof.Machine
end

section
/-! SUPPORT. The rotation (40_keyschedule.md R110), bit by bit: every other law is read off the bits. -/

namespace Sys2Proof.Machine

/-- The rotation is the library's, which has no case for `m = 0`. -/
theorem rotl8_eq_rotateLeft (b : Byte) (n : Nat) : rotl8 b n = b.rotateLeft n := by
  rw [rotl8, BitVec.rotateLeft_def]
  split
  case isTrue h =>
    have hout : b >>> 8 = 0#8 := BitVec.ushiftRight_eq_zero le_rfl
    rw [h, BitVec.shiftLeft_zero, hout, BitVec.or_zero]
  case isFalse => rfl

/-- Bit `j` of the result comes from `n mod 8` places below, cyclically. -/
theorem getLsbD_rotl8 (b : Byte) (n : Nat) {j : Nat} (hj : j < 8) :
    (rotl8 b n).getLsbD j = b.getLsbD ((j + (8 - n % 8)) % 8) := by
  rw [rotl8_eq_rotateLeft, BitVec.getLsbD_rotateLeft]
  rcases Nat.lt_or_ge j (n % 8) with h | h
  · simp only [h, decide_true, cond_true]
    congr 1; omega
  · simp only [Nat.not_lt.2 h, hj, decide_true, decide_false, cond_false, Bool.true_and]
    congr 1; omega

theorem rotl8_mod (b : Byte) (n : Nat) : rotl8 b (n % 8) = rotl8 b n := by
  simp only [rotl8_eq_rotateLeft, BitVec.rotateLeft_mod_eq_rotateLeft]

theorem rotl8_rotl8 (b : Byte) (m n : Nat) : rotl8 (rotl8 b m) n = rotl8 b (m + n) := by
  apply BitVec.eq_of_getLsbD_eq
  intro j hj
  rw [getLsbD_rotl8 _ _ hj, getLsbD_rotl8 _ _ (Nat.mod_lt _ (by decide)), getLsbD_rotl8 _ _ hj]
  congr 1; omega

/-- The formula of R110 on naturals. -/
theorem toNat_rotl8 (b : Byte) (n : Nat) : (rotl8 b n).toNat =
    if n % 8 = 0 then b.toNat else (b.toNat <<< (n % 8) ||| b.toNat >>> (8 - n % 8)) &&& 0xFF := by
  rw [rotl8]
  split
  case isTrue => rfl
  case isFalse =>
    have hlow : b.toNat >>> (8 - n % 8) < 2 ^ 8 := (b >>> (8 - n % 8)).isLt
    rw [show 0xFF = 2 ^ 8 - 1 from rfl, Nat.and_two_pow_sub_one_eq_mod, Nat.or_mod_two_pow, Nat.mod_eq_of_lt hlow]
    rfl

/-- The bits of the result are the bits of `b` as a list, rotated. -/
theorem bits_rotl8 (b : Byte) (n : Nat) :
    (List.range 8).map (rotl8 b n).getLsbD = ((List.range 8).map b.getLsbD).rotate (8 - n % 8) := by
  apply List.ext_getElem (by simp)
  intro j hj _
  simp only [List.length_map, List.length_range] at hj
  simp [List.getElem_rotate, getLsbD_rotl8 b n hj]

/-- The number of 1 bits is kept. -/
theorem ones_rotl8 (b : Byte) (n : Nat) : ((List.range 8).filter (rotl8 b n).getLsbD).length =
    ((List.range 8).filter b.getLsbD).length := by
  have h := (List.rotate_perm ((List.range 8).map b.getLsbD) (8 - n % 8)).countP_eq id
  rwa [← bits_rotl8, List.countP_map, List.countP_map, List.countP_eq_length_filter,
    List.countP_eq_length_filter] at h

/-- A byte whose bits are all equal is fixed. -/
theorem rotl8_fixed {b : Byte} {v : Bool} (hb : ∀ j < 8, b.getLsbD j = v) (n : Nat) : rotl8 b n = b := by
  apply BitVec.eq_of_getLsbD_eq
  intro j hj
  rw [getLsbD_rotl8 _ _ hj, hb _ (Nat.mod_lt _ (by decide)), hb j hj]

end Sys2Proof.Machine
end

section
/-! SUPPORT. KEY along a run (10_state.md R23): no event writes it. -/

namespace Sys2Proof.Machine

theorem step_key {s t : State} (h : step s = .next t) : t.key = s.key := by
  rcases step_cases h with ⟨-, rfl⟩ | ⟨-, rfl⟩ | ⟨-, rfl⟩ | ⟨-, -, rfl⟩ | ⟨-, w, ws, -, hw⟩
  · rfl
  · rfl
  · obtain ⟨a, f⟩ := resume_frame s
    exact f.key
  · rfl
  · obtain ⟨a, f⟩ := execWord_frame hw
    exact f.key

theorem eventApply_key (e : Event) (s : State) : (e.apply s).key = s.key := by
  cases e with
  | engine =>
    rw [Event.apply]
    split
    case h_1 t h => exact step_key h
    all_goals rfl
  | host m => rw [Event.apply, hostMove_eq]

theorem runEvents_key (es : List Event) (s : State) : (runEvents es s).key = s.key := by
  induction es generalizing s with
  | nil => rfl
  | cons e es ih => rw [runEvents, ih, eventApply_key]

end Sys2Proof.Machine
end

section
/-! CLAIMS of 40_keyschedule.md: the rotation (R110), the two subkey schedules (R112 to R115) and KGEN (R116). -/

namespace Sys2Proof.Machine

/-- Settles O9: both sides are `rotl8(K, i + 1)`. -/
theorem decryptSubkeysAreEncryptSubkeysReversed : Obligations.DecryptSubkeysAreEncryptSubkeysReversed := by
  intro K r i hi
  rw [subkeyEnc, subkeyDec]
  congr 1; omega

/-- Settles O11: the effect as defined, and the rotation by the count modulo 8. -/
theorem kgenLoadsRotatedKey : Obligations.KgenLoadsRotatedKey := fun n s =>
  ⟨rfl, (rotl8_mod s.key n.toNat).symm⟩

/-- Settles O8, law by law; one rotation more is the case `m = n, n = 1` of their addition. -/
theorem rotlIsCircularLeftRotation : Obligations.RotlIsCircularLeftRotation := by
  refine ⟨toNat_rotl8, fun b n i hi => ?_, fun b n => (rotl8_rotl8 b n 1).symm, fun _ => rfl, fun b n => ?_, rotl8_rotl8,
    ones_rotl8, fun n => ⟨?_, ?_⟩, by decide⟩
  · rw [getLsbD_rotl8 _ _ (Nat.mod_lt _ (by decide))]
    congr 1; omega
  · rw [← rotl8_mod, Nat.add_mod_right, rotl8_mod]
  · exact rotl8_fixed (v := false) (by decide) n
  · exact rotl8_fixed (v := true) (by decide) n

/-- R114 for whole schedules: the decrypt schedule is the first `r` encrypt subkeys, reversed. -/
theorem subkeyDec_schedule (K : Byte) (r : RoundCount) : ((List.range r.val).map fun i => subkeyDec K r.val i) =
    (((List.range 8).map fun i => subkeyEnc K i).take r.val).reverse := by
  rw [← List.map_take, List.take_range, Nat.min_eq_left r.max]
  apply List.ext_getElem (by simp)
  intro i hi _
  have hi : i < r.val := by simpa using hi
  simp only [List.getElem_reverse, List.getElem_map, List.getElem_range, List.length_map, List.length_range]
  rw [decryptSubkeysAreEncryptSubkeysReversed K r _ (by omega)]
  congr 1; omega

/-- The encrypt schedule of this hardware's key (R115). -/
theorem subkeyEnc_schedule_fge : ((List.range 8).map fun i => subkeyEnc 0x96 i) =
    [0x2D, 0x5A, 0xB4, 0x69, 0xD2, 0xA5, 0x4B, 0x96] := by decide

/-- The table of R115, at each of its eight counts. -/
theorem rotl8_fge_table : ∀ m < 8, rotl8 0x96 m =
    ([0x96, 0x2D, 0x5A, 0xB4, 0x69, 0xD2, 0xA5, 0x4B] : List Byte).getD m 0 := by decide

/-- Settles O10: no event writes KEY; the schedules of 0x96 are its table, forwards and reversed. -/
theorem subkeysOfThisHardware : Obligations.SubkeysOfThisHardware := by
  refine ⟨runEvents_key, resetFor_key, rfl, subkeyEnc_schedule_fge, fun r => ?_, fun n => ?_, by decide⟩
  · rw [subkeyDec_schedule, subkeyEnc_schedule_fge]
  · rw [← rotl8_mod]
    exact rotl8_fge_table (n % 8) (Nat.mod_lt _ (by decide))

end Sys2Proof.Machine
end

section
/-! SUPPORT. The round and the exchange of halves on the cells of a block (41_round.md R131 to R133), and how often each
is repeated to give the block back. -/

namespace Sys2Proof.Machine

theorem fst_roundHalves (l r : Half) (k : Byte) : (roundHalves l r k).1 = r := rfl

theorem get_snd_roundHalves (l r : Half) (k : Byte) (j : Fin 64) :
    (roundHalves l r k).2.get j = l.get j ^^^ r.get j ^^^ k := by
  rw [roundHalves, get_xorBytes, get_xorByte, BitVec.xor_assoc]

@[simp] theorem get_roundBlock_cellL (b : Block) (k : Byte) (j : Fin 64) :
    (roundBlock b k).get (cellL j) = b.get (cellR j) := by
  rw [← get_left, left_roundBlock, fst_roundHalves, get_right]

@[simp] theorem get_roundBlock_cellR (b : Block) (k : Byte) (j : Fin 64) :
    (roundBlock b k).get (cellR j) = b.get (cellL j) ^^^ b.get (cellR j) ^^^ k := by
  rw [← get_right, right_roundBlock, get_snd_roundHalves, get_left, get_right]

@[simp] theorem get_swapBlock_cellL (b : Block) (j : Fin 64) : (swapBlock b).get (cellL j) = b.get (cellR j) := by
  rw [← get_left, left_swapBlock, get_right]

@[simp] theorem get_swapBlock_cellR (b : Block) (j : Fin 64) : (swapBlock b).get (cellR j) = b.get (cellL j) := by
  rw [← get_right, right_swapBlock, get_left]

/-- The lane of R134: the same byte and the same key, mixed in once more, leave the other byte. -/
theorem lane_mixed_twice (l r k : Byte) : l ^^^ r ^^^ k ^^^ r ^^^ k = l := by
  rw [BitVec.xor_assoc (l ^^^ r ^^^ k), BitVec.xor_assoc l, BitVec.xor_comm r, BitVec.xor_assoc, BitVec.xor_self,
    BitVec.xor_zero]

theorem roundHalves_swapped (a b : Half) (k : Byte) :
    roundHalves (roundHalves a b k).2 (roundHalves a b k).1 k = (b, a) := by
  apply Prod.ext
  case fst => rfl
  case snd =>
    apply Bytes.ext_get
    intro j
    rw [get_snd_roundHalves, get_snd_roundHalves, fst_roundHalves, lane_mixed_twice]

/-- The keyless lane map has order 3: `(l, r) -> (r, l ^ r) -> (l ^ r, l) -> (l, r)` (R132). -/
theorem roundBlock_zero_order_three (b : Block) : roundBlock (roundBlock (roundBlock b 0) 0) 0 = b := by
  have second (l r : Byte) : r ^^^ (l ^^^ r ^^^ 0) ^^^ 0 = l := by rw [BitVec.xor_comm r, lane_mixed_twice]
  have third (l r : Byte) : l ^^^ r ^^^ 0 ^^^ l ^^^ 0 = r := by rw [BitVec.xor_comm l, lane_mixed_twice]
  apply block_ext
  case hl => intro j; simp only [get_roundBlock_cellL, get_roundBlock_cellR, second]
  case hr => intro j; simp only [get_roundBlock_cellL, get_roundBlock_cellR, second, third]

theorem swapBlock_swapBlock (b : Block) : swapBlock (swapBlock b) = b := by
  rw [swapBlock, left_swapBlock, right_swapBlock, join_left_right]

end Sys2Proof.Machine
end

section
/-! CLAIMS of 41_round.md: the pure round (R130, R134), ROUND (R132) and SWAP (R133). -/

namespace Sys2Proof.Machine

/-- Settles O12: the lane map `(l, r) -> (r, l ^ r ^ k)` of R131. -/
theorem roundActsLaneByLane : Obligations.RoundActsLaneByLane := fun l r k j =>
  ⟨congrArg (Bytes.get · j) (fst_roundHalves l r k), get_snd_roundHalves l r k j⟩

/-- Settles O13: the premise names the two halves of the first round. -/
theorem roundUndoneBySwappedRound : Obligations.RoundUndoneBySwappedRound := by
  intro a b a' b' k h
  have ha : a' = (roundHalves a b k).1 := congrArg Prod.fst h
  have hb : b' = (roundHalves a b k).2 := congrArg Prod.snd h
  rw [ha, hb, roundHalves_swapped]

/-- Settles O14: BLK becomes `roundBlock` of BLK and SK, read cell by cell. -/
theorem roundCommandUpdatesBlock : Obligations.RoundCommandUpdatesBlock := fun s =>
  ⟨roundBlock s.blk s.sk, fun j => ⟨get_roundBlock_cellL _ _ j, get_roundBlock_cellR _ _ j⟩, rfl⟩

section
variable {s : State} (hs : s.halt = false)
include hs

theorem execAll_round (is : List Instr) : execAll (.round :: is) s =
    execAll is { s with blk := roundBlock s.blk s.sk, busy := false, cur := none } :=
  execAll_cons rfl (by exact hs) rfl is

theorem execAll_swap (is : List Instr) : execAll (.swap :: is) s =
    execAll is { s with blk := swapBlock s.blk, busy := false, cur := none } :=
  execAll_cons rfl (by exact hs) rfl is

end

/-- Settles O15: the three commands run one after the other, and the keyless round has order 3. -/
theorem threeKeylessRoundsRestoreBlock : Obligations.ThreeKeylessRoundsRestoreBlock := by
  intro s hs hk
  rw [execAll_round hs, execAll_round (by exact hs), execAll_round (by exact hs), execAll, hk,
    roundBlock_zero_order_three]

/-- Settles O16: BLK becomes `swapBlock` of BLK, which is its own inverse. -/
theorem swapCommandExchangesHalves : Obligations.SwapCommandExchangesHalves := by
  refine ⟨fun s => ?_, fun s hs => ?_⟩
  · exact ⟨swapBlock s.blk, fun j => ⟨get_swapBlock_cellL _ j, get_swapBlock_cellR _ j⟩, rfl⟩
  · rw [execAll_swap hs, execAll_swap (by exact hs), swapBlock_swapBlock, execAll]

end Sys2Proof.Machine
end

section
/-! SUPPORT. The rounds of a transform (42_blockcipher.md R150): undone by the same rounds in reverse order, and each
byte position on its own. -/

namespace Sys2Proof.Machine

theorem transform_eq (B : Block) (K : Byte) (r : RoundCount) (dir : Direction) : transform B K r dir =
    join (roundsHalves (subkey K r dir) r.val (left B, right B)).2
      (roundsHalves (subkey K r dir) r.val (left B, right B)).1 := rfl

/-- The claim in the proof of R153: on the exchanged halves, `i` rounds with the subkeys `k` in reverse order take back
the last `i` of `n` rounds. -/
theorem roundsHalves_reversed {k k' : Nat → Byte} {n : Nat} (hk : ∀ i < n, k' i = k (n - 1 - i)) (p : Half × Half)
    {i : Nat} (hi : i ≤ n) :
    roundsHalves k' i (roundsHalves k n p).swap = (roundsHalves k (n - i) p).swap := by
  induction i with
  | zero => rfl
  | succ i ih =>
    have hn : n - i = n - 1 - i + 1 := by omega
    rw [roundsHalves, ih (by omega), hk i hi, hn, roundsHalves, Nat.sub_add_eq, Nat.sub_right_comm]
    exact roundHalves_swapped _ _ _

/-- A transform is undone by a transform with the subkeys in reverse order (R153). -/
theorem transform_transform {K : Byte} {r : RoundCount} {d d' : Direction}
    (hk : ∀ i < r.val, subkey K r d' i = subkey K r d (r.val - 1 - i)) (B : Block) :
    transform (transform B K r d) K r d' = B := by
  have h := roundsHalves_reversed hk (left B, right B) le_rfl
  rw [Nat.sub_self] at h
  rw [transform_eq (transform B K r d), transform_eq B, left_join, right_join]
  exact (congrArg (fun q => join q.2 q.1) h).trans (join_left_right B)

theorem subkey_encrypt_reversed (K : Byte) (r : RoundCount) {i : Nat} (hi : i < r.val) :
    subkey K r .encrypt i = subkey K r .decrypt (r.val - 1 - i) :=
  decryptSubkeysAreEncryptSubkeysReversed K r i hi

theorem subkey_decrypt_reversed (K : Byte) (r : RoundCount) {i : Nat} (hi : i < r.val) :
    subkey K r .decrypt i = subkey K r .encrypt (r.val - 1 - i) := by
  rw [subkey_encrypt_reversed K r (by omega)]
  congr 1; omega

/-! ### One byte position (R154) -/

section
variable (k : Nat → Byte) (n : Nat) (p : Half × Half)

theorem roundsHalves_zero : roundsHalves k 0 p = p := rfl

theorem fst_roundsHalves_succ : (roundsHalves k (n + 1) p).1 = (roundsHalves k n p).2 := rfl

theorem get_snd_roundsHalves_succ (j : Fin 64) : (roundsHalves k (n + 1) p).2.get j =
    (roundsHalves k n p).1.get j ^^^ (roundsHalves k n p).2.get j ^^^ k n :=
  get_snd_roundHalves _ _ _ j

/-- Two rounds bring the left byte to the right, keyed twice: the right byte cancels. So the linear part has period 3 in
the round count (R154). -/
theorem get_snd_roundsHalves_add_two (j : Fin 64) : (roundsHalves k (n + 2) p).2.get j =
    (roundsHalves k n p).1.get j ^^^ k n ^^^ k (n + 1) := by
  have cancel (l r v : Byte) : r ^^^ (l ^^^ r ^^^ v) = l ^^^ v := by
    rw [BitVec.xor_comm l, BitVec.xor_assoc, ← BitVec.xor_assoc r, BitVec.xor_self, BitVec.zero_xor]
  rw [get_snd_roundsHalves_succ, fst_roundsHalves_succ, get_snd_roundsHalves_succ, cancel]

end

/-- The Encrypt columns of R154's table, for any subkeys: each row from the row two rounds before. -/
theorem get_roundsHalves_closed (e : Nat → Byte) (r : RoundCount) (p : Half × Half) (j : Fin 64) :
    ((roundsHalves (fun i => e (i + 1)) r.val p).2.get j, (roundsHalves (fun i => e (i + 1)) r.val p).1.get j) =
      closedEncrypt e (p.1.get j) (p.2.get j) r.val := by
  obtain ⟨n, hmin, hmax⟩ := r
  interval_cases n <;>
    simp only [closedEncrypt, get_snd_roundsHalves_add_two, get_snd_roundsHalves_succ, fst_roundsHalves_succ,
      roundsHalves_zero]

/-- The same for the transform, whose last exchange puts the right half first. -/
theorem transform_closed {K : Byte} {r : RoundCount} {dir : Direction} {e : Nat → Byte}
    (he : subkey K r dir = fun i => e (i + 1)) (B : Block) (j : Fin 64) :
    ((transform B K r dir).get (cellL j), (transform B K r dir).get (cellR j)) =
      closedEncrypt e (B.get (cellL j)) (B.get (cellR j)) r.val := by
  rw [transform_eq, he, get_join_cellL, get_join_cellR, get_roundsHalves_closed, get_left, get_right]

/-- The table of R115, with its key in the form `simp` brings the literal to. -/
theorem rotl8_fge (n : Nat) : rotl8 0x96#8 n =
    ([0x96, 0x2D, 0x5A, 0xB4, 0x69, 0xD2, 0xA5, 0x4B] : List Byte).getD (n % 8) 0 := by
  obtain ⟨-, -, -, -, -, htable, -⟩ := subkeysOfThisHardware
  exact htable n

theorem closedEncrypt_fge_encrypt (r : RoundCount) (l r0 : Byte) :
    closedEncrypt (fun n => rotl8 0x96 n) l r0 r.val = closedEncrypt96 l r0 r.val := by
  obtain ⟨n, hmin, hmax⟩ := r
  interval_cases n <;> simp [closedEncrypt, closedEncrypt96, rotl8_fge, BitVec.xor_assoc]

theorem closedEncrypt_fge_decrypt (r : RoundCount) (cl cr : Byte) :
    closedEncrypt (fun n => subkeyDec 0x96 r.val (n - 1)) cl cr r.val = closedDecrypt96 cl cr r.val := by
  obtain ⟨n, hmin, hmax⟩ := r
  interval_cases n <;> simp [closedEncrypt, closedDecrypt96, subkeyDec, rotl8_fge, BitVec.xor_assoc]

end Sys2Proof.Machine
end

section
/-! SUPPORT. The commands BENC and BDEC (42_blockcipher.md R151, R152) and the primitive commands they equal (R155). -/

namespace Sys2Proof.Machine

theorem exec_benc (r : RoundCount) (s : State) :
    exec (.benc (BitVec.ofNat 4 r.val)) s = .next (complete (blockTransform .encrypt r s)) :=
  congrArg _ (withRounds_legal r _ s _)

theorem exec_bdec (r : RoundCount) (s : State) :
    exec (.bdec (BitVec.ofNat 4 r.val)) s = .next (complete (blockTransform .decrypt r s)) :=
  congrArg _ (withRounds_legal r _ s _)

@[simp] theorem runRounds_key (k : Nat → Byte) (n : Nat) (s : State) : (runRounds k n s).key = s.key := by
  rw [runRounds_eq]

@[simp] theorem runRounds_halt (k : Nat → Byte) (n : Nat) (s : State) : (runRounds k n s).halt = s.halt := by
  rw [runRounds_eq]

/-- `kgen (c 0)`, `round`, ..., `kgen (c (n - 1))`, `round`. -/
def roundCommands (c : Nat → Nat) (n : Nat) : List Instr :=
  (List.range n).flatMap fun i => [.kgen (BitVec.ofNat 24 (c i)), .round]

theorem encryptPrimitives_eq (r : Nat) : encryptPrimitives r = roundCommands (fun i => i + 1) r ++ [.swap] := rfl

theorem decryptPrimitives_eq (r : Nat) : decryptPrimitives r = roundCommands (fun i => r - i) r ++ [.swap] := rfl

theorem roundCommands_succ_append (c : Nat → Nat) (n : Nat) (is : List Instr) :
    roundCommands c (n + 1) ++ is = roundCommands c n ++ .kgen (BitVec.ofNat 24 (c n)) :: .round :: is := by
  simp [roundCommands, List.range_succ]

theorem execAll_kgen_round {s : State} (hs : s.halt = false) {m : Nat} (hm : m < 2 ^ 24) (is : List Instr) :
    execAll (.kgen (BitVec.ofNat 24 m) :: .round :: is) s =
      execAll is (complete (applyRound (setSubkey (rotl8 s.key m) s))) := by
  have hn : operandN (BitVec.ofNat 24 m) = m := by rw [operandN, BitVec.toNat_ofNat, Nat.mod_eq_of_lt hm]
  rw [execAll_cons (i := .kgen _) rfl (by exact hs) rfl, execAll_round (by exact hs), hn]
  rfl

/-- The commands of the rounds run the rounds of a block command. There is at least one, so the last has completed. -/
theorem execAll_roundCommands {s : State} (hs : s.halt = false) {c : Nat → Nat} {n : Nat} (hn : 1 ≤ n)
    (hc : ∀ i < n, c i < 2 ^ 24) (is : List Instr) :
    execAll (roundCommands c n ++ is) s = execAll is (complete (runRounds (fun i => rotl8 s.key (c i)) n s)) := by
  induction n, hn using Nat.le_induction generalizing is with
  | base => exact execAll_kgen_round hs (hc 0 one_pos) is
  | succ n hn ih =>
    rw [roundCommands_succ_append, ih fun i hi => hc i (by omega),
      execAll_kgen_round (by simpa using hs) (hc n n.lt_succ_self), complete_key, runRounds_key]
    rfl

/-- The commands of all the rounds, then `swap`. -/
theorem execAll_blockPrimitives {s : State} (hs : s.halt = false) {r : RoundCount} {c : Nat → Nat}
    (hc : ∀ i < r.val, c i < 2 ^ 24) : execAll (roundCommands c r.val ++ [.swap]) s =
      .next (complete (applySwap (runRounds (fun i => rotl8 s.key (c i)) r.val s))) := by
  rw [execAll_roundCommands hs r.min hc, execAll_swap (by simpa using hs), execAll]
  rfl

end Sys2Proof.Machine
end

section
/-! CLAIMS of 42_blockcipher.md: BENC and BDEC (R151, R152), invertibility (R153), closed forms (R154), and the block
commands as primitive commands (R155). -/

namespace Sys2Proof.Machine

/-- Settles O17: the body of R151 changes BLK and SK only, and the last subkey is `rotl8(KEY, r)`. -/
theorem bencTransformsBlock : Obligations.BencTransformsBlock := by
  intro r s
  rw [exec_benc, blockTransform_eq, subkey_last_encrypt]
  rfl

/-- Settles O18: the body of R152 changes BLK and SK only, and the last subkey is `rotl8(KEY, 1)`. -/
theorem bdecTransformsBlock : Obligations.BdecTransformsBlock := by
  intro r s
  rw [exec_bdec, blockTransform_eq, subkey_last_decrypt]
  rfl

/-- Settles O19: each direction has the other's subkeys in reverse order. -/
theorem transformIsInvertible : Obligations.TransformIsInvertible := by
  have hdec (B : Block) (K : Byte) (r : RoundCount) : transform (transform B K r .encrypt) K r .decrypt = B :=
    transform_transform (fun _ => subkey_decrypt_reversed K r) B
  constructor
  · exact fun B K r => ⟨hdec B K r, transform_transform (fun _ => subkey_encrypt_reversed K r) B⟩
  · intro r s hs
    rw [execAll_cons (bencTransformsBlock r s) (by exact hs) rfl,
      execAll_cons (bdecTransformsBlock r _) (by exact hs) rfl, execAll, hdec]

/-- Settles O20: the rounds at one byte position, then the constants of this hardware's key. -/
theorem transformHasClosedForms : Obligations.TransformHasClosedForms := by
  intro B r j
  have henc (K : Byte) : ((transform B K r .encrypt).get (cellL j), (transform B K r .encrypt).get (cellR j)) =
      closedEncrypt (fun n => rotl8 K n) (B.get (cellL j)) (B.get (cellR j)) r.val := transform_closed rfl B j
  refine ⟨henc, (henc _).trans (closedEncrypt_fge_encrypt r _ _), ?_⟩
  exact (transform_closed (e := fun n => subkeyDec 0x96 r.val (n - 1)) rfl B j).trans
    (closedEncrypt_fge_decrypt r _ _)

/-- Settles O21: both sides run the rounds with the same subkeys, then exchange the halves. -/
theorem blockCommandsArePrimitiveSequences : Obligations.BlockCommandsArePrimitiveSequences := by
  intro r s hs
  have hmax := r.max
  rw [exec_benc, exec_bdec, encryptPrimitives_eq, decryptPrimitives_eq]
  exact ⟨execAll_blockPrimitives hs fun i hi => by omega, execAll_blockPrimitives hs fun i hi => by omega⟩

end Sys2Proof.Machine
end

section
/-! CLAIMS of 43_stream.md sections 1 and 2: block counts and padding (R170, R171), LENL and LENH (R173, R174). -/

namespace Sys2Proof.Machine

/-- Settles O23: one register transfer. -/
theorem lenlSetsLength : Obligations.LenlSetsLength := fun _ _ => rfl

/-- Settles O24: one register transfer. -/
theorem lenhSetsHighByte : Obligations.LenhSetsHighByte := fun _ _ => rfl

/-- `BlockCount` in bits (R170). -/
theorem blockCount_bits (n : BitVec 32) :
    blockCount n.toNat = (n.extractLsb' 7 25).toNat + if n.extractLsb' 0 7 = 0 then 0 else 1 := by
  have hhigh : (n.extractLsb' 7 25).toNat = n.toNat / 128 := by
    rw [BitVec.extractLsb'_toNat, Nat.shiftRight_eq_div_pow]; omega
  have hlow : n.extractLsb' 0 7 = 0 ↔ n.toNat % 128 = 0 := by
    rw [← BitVec.toNat_inj, BitVec.extractLsb'_toNat, Nat.shiftRight_zero]; rfl
  simp only [hhigh, hlow, blockCount]
  split <;> omega

/-- Settles O25: division with remainder. -/
theorem blockCountIsCeiling : Obligations.BlockCountIsCeiling := by
  refine ⟨fun n => ⟨?_, fun m hm => ?_⟩, blockCount_bits, fun n i hi => ⟨?_, ?_⟩⟩ <;> unfold blockCount at *
  · omega
  · omega
  · unfold avail; split <;> omega
  · unfold avail; omega

/-- `Pad` on its domain (R171). -/
theorem list_pad_of_le {c : List Byte} (h : c.length ≤ 128) :
    (pad c).list = c ++ List.replicate (128 - c.length) 0x00 := by
  rw [list_pad, List.take_of_length_le h]

theorem blockCount_mul (m : Nat) : blockCount (128 * m) = m := by unfold blockCount; omega

/-- Settles O26: nothing is cut off a chunk, and nothing is appended to a full one. -/
theorem padAppendsZeros : Obligations.PadAppendsZeros :=
  ⟨fun _ _ => list_pad_of_le, pad_full, blockCount_mul⟩

end Sys2Proof.Machine
end

section
/-! CLAIMS of 43_stream.md section 1 (R172): the strip length, and what is stripped as a list operation. -/

namespace Sys2Proof.Machine

/-- R172's loop stops at `k` when every byte from `k` on is zero and the byte before `k`, if there is one, is not. -/
theorem stripFrom_eq {bytes : List Byte} {k n : Nat} (hk : k ≤ n)
    (hzero : ∀ j, k ≤ j → j < n → bytes.getD j 0x00 = 0x00) (hlast : ∀ j, k = j + 1 → bytes.getD j 0x00 ≠ 0x00) :
    stripFrom bytes n = k := by
  induction n, hk using Nat.le_induction with
  | base =>
    cases k with
    | zero => rfl
    | succ j => rw [stripFrom, if_neg (hlast j rfl)]
  | succ n hn ih => rw [stripFrom, if_pos (hzero n hn n.lt_succ_self), ih fun j hj hjn => hzero j hj (by omega)]

theorem getD_list {n : Nat} (b : Bytes n) (v : Byte) (i : Fin n) : b.list.getD i.val v = b.get i :=
  (List.getElem_eq_getD v).symm

/-- Settles O27: the loop of R172 stops behind the last non-zero byte. -/
theorem stripLenIsPastLastNonzero : Obligations.StripLenIsPastLastNonzero := by
  intro B
  refine ⟨fun hB => ?_, fun i hi hB => ?_, rfl⟩
  · refine stripFrom_eq (Nat.zero_le _) (fun j _ hj => ?_) fun j hj => absurd hj (Nat.succ_ne_zero j).symm
    exact (getD_list B 0x00 ⟨j, hj⟩).trans (hB _)
  · refine stripFrom_eq (by omega) (fun j hij hj => ?_) fun j hj => ?_
    · exact (getD_list B 0x00 ⟨j, hj⟩).trans (hB _ hij)
    · obtain rfl : i.val = j := Nat.succ.inj hj
      exact fun h => hi ((getD_list B 0x00 i).symm.trans h)

theorem take_stripFrom (bytes : List Byte) {n : Nat} (h : n ≤ bytes.length) :
    bytes.take (stripFrom bytes n) = (bytes.take n).rdropWhile (· == 0x00) := by
  induction n with
  | zero => rfl
  | succ n ih =>
    rw [← List.take_concat_get' _ _ h, List.rdropWhile_concat, stripFrom, ← List.getElem_eq_getD (h := h) 0x00]
    by_cases hz : bytes[n] = 0x00
    · rw [if_pos hz, if_pos (beq_iff_eq.2 hz), ih (by omega)]
    · rw [if_neg hz, if_neg (by simpa using hz), List.take_concat_get']

/-- Stripping drops the trailing zeros. -/
theorem strip_eq_rdropWhile (B : Block) : strip B = B.list.rdropWhile (· == 0x00) := by
  rw [strip, stripLen, take_stripFrom _ B.size.ge, Block.take_all]

theorem rdropWhile_append_zeros (c : List Byte) (k : Nat) :
    (c ++ List.replicate k 0x00).rdropWhile (· == 0x00) = c.rdropWhile (· == 0x00) := by
  induction k with
  | zero => rw [List.replicate_zero, List.append_nil]
  | succ k ih => rw [List.replicate_succ', ← List.append_assoc, List.rdropWhile_concat_pos _ _ _ rfl, ih]

theorem rdropWhile_zeros_eq_self_iff (c : List Byte) :
    c.rdropWhile (· == 0x00) = c ↔ c.getLast? = none ∨ ∃ b, c.getLast? = some b ∧ b ≠ 0x00 := by
  rcases c.eq_nil_or_concat with rfl | ⟨c, b, rfl⟩ <;> simp

/-- The zeros `Pad` appends are stripped again, with the chunk's own trailing zeros. -/
theorem strip_pad {c : List Byte} (h : c.length ≤ 128) : strip (pad c) = c.rdropWhile (· == 0x00) := by
  rw [strip_eq_rdropWhile, list_pad_of_le h, rdropWhile_append_zeros]

theorem stripLen_le (B : Block) : stripLen B ≤ 128 := stripFrom_le _ _

theorem length_strip (B : Block) : (strip B).length = stripLen B := by
  rw [strip, List.length_take, B.size, Nat.min_eq_left (stripLen_le B)]

end Sys2Proof.Machine
end

section
/-! SUPPORT. The streams of 43_stream.md R177 block by block. -/

namespace Sys2Proof.Machine

theorem chunk_eq (P : List Byte) (i : Nat) : chunk P i = (P.drop (128 * i)).take 128 := by
  rw [chunk, avail, ← List.length_drop, ← List.take_eq_take_min]

theorem chunk_of_length_le {P : List Byte} {i : Nat} (h : P.length ≤ 128 * i) : chunk P i = [] := by
  rw [chunk_eq, List.drop_of_length_le h, List.take_nil]

/-- Chunk `i` of a sequence of blocks is block `i`. -/
theorem chunk_flatMap_blocks (f : Nat → Block) {i n : Nat} (h : i < n) :
    chunk ((List.range n).flatMap fun j => (f j).list) i = (f i).list := by
  obtain ⟨m, rfl⟩ : ∃ m, n = i + 1 + m := Nat.exists_eq_add_of_le h
  rw [chunk_eq, List.range_add, List.range_succ, List.append_assoc, List.flatMap_append,
    List.drop_left' (length_flatMap_blocks f i), List.flatMap_append, List.flatMap_singleton,
    List.take_left' (f i).size]

theorem streamEnc_nil (K : Byte) (r : RoundCount) : streamEnc [] K r = [] := rfl

theorem length_streamEnc (P : List Byte) (K : Byte) (r : RoundCount) :
    (streamEnc P K r).length = 128 * blockCount P.length := length_flatMap_blocks _ _

/-- A ciphertext block depends on its plaintext chunk only. -/
theorem chunk_streamEnc {P : List Byte} {i : Nat} (K : Byte) (r : RoundCount) (h : i < blockCount P.length) :
    chunk (streamEnc P K r) i = (transform (pad (chunk P i)) K r .encrypt).list := chunk_flatMap_blocks _ h

theorem streamDec_nil (K : Byte) (r : RoundCount) : streamDec [] K r = some [] := rfl

/-- A ciphertext of `m + 1` blocks: the last decrypted block is stripped. -/
theorem streamDec_blocks {C : List Byte} {m : Nat} (K : Byte) (r : RoundCount) (h : C.length = 128 * (m + 1)) :
    streamDec C K r = some (decryptedBlocks C K r m ++ strip (blockOf C K r .decrypt m)) := by
  have hmod : ¬ C.length % 128 ≠ 0 := by omega
  have hdiv : C.length / 128 = m + 1 := by omega
  rw [streamDec, if_neg hmod, hdiv]

theorem streamDec_partial {C : List Byte} (K : Byte) (r : RoundCount) (h : C.length % 128 ≠ 0) :
    streamDec C K r = none := if_pos h

theorem length_decryptedBlocks (C : List Byte) (K : Byte) (r : RoundCount) (q : Nat) :
    (decryptedBlocks C K r q).length = 128 * q := length_flatMap_blocks _ _

/-- Decryption gives each block of the padded plaintext back. -/
theorem blockOf_streamEnc {P : List Byte} {i : Nat} (K : Byte) (r : RoundCount) (h : i < blockCount P.length) :
    blockOf (streamEnc P K r) K r .decrypt i = pad (chunk P i) := by
  rw [blockOf, chunk_streamEnc K r h, pad_full, transform_transform fun _ => subkey_decrypt_reversed K r]

/-- Full chunks laid end to end are the sequence they come from. -/
theorem flatMap_pad_chunk (P : List Byte) {q : Nat} (h : 128 * q ≤ P.length) :
    ((List.range q).flatMap fun i => (pad (chunk P i)).list) = P.take (128 * q) := by
  induction q with
  | zero => rfl
  | succ q ih =>
    have hfull : (chunk P q).length = 128 := by rw [chunk_eq, List.length_take, List.length_drop]; omega
    rw [List.range_succ, List.flatMap_append, ih (by omega), List.flatMap_singleton, list_pad_of_le hfull.le, hfull,
      Nat.sub_self, List.replicate_zero, List.append_nil, chunk_eq, Nat.mul_succ, List.take_add]

theorem decryptedBlocks_streamEnc {P : List Byte} {q : Nat} (K : Byte) (r : RoundCount) (h : 128 * q ≤ P.length) :
    decryptedBlocks (streamEnc P K r) K r q = P.take (128 * q) := by
  rw [← flatMap_pad_chunk P h, decryptedBlocks, List.flatMap_def, List.flatMap_def]
  refine congrArg _ (List.map_congr_left fun i hi => ?_)
  have hiq : i < q := List.mem_range.1 hi
  rw [blockOf_streamEnc K r (by unfold blockCount; omega)]

end Sys2Proof.Machine
end

section
/-! CLAIMS of 43_stream.md section 4: lengths and independence of blocks (R178), the round trip (R179). -/

namespace Sys2Proof.Machine

/-- At most the last block is shortened (R178 (b)). -/
theorem length_streamDec_bounds {C out : List Byte} {K : Byte} {r : RoundCount} (hC : 1 ≤ C.length)
    (h : streamDec C K r = some out) : C.length - 128 ≤ out.length ∧ out.length ≤ C.length := by
  by_cases hmod : C.length % 128 = 0
  · obtain ⟨m, hm⟩ : ∃ m, C.length = 128 * (m + 1) := ⟨C.length / 128 - 1, by omega⟩
    have hstrip := stripLen_le (blockOf C K r .decrypt m)
    rw [streamDec_blocks K r hm, Option.some.injEq] at h
    rw [← h, List.length_append, length_decryptedBlocks, length_strip]
    omega
  · rw [streamDec_partial K r hmod] at h
    exact absurd h.symm (Option.some_ne_none _)

/-- Settles O32: the ciphertext is the transformed chunks, each one block long. -/
theorem streamLengthsAndBlockIndependence : Obligations.StreamLengthsAndBlockIndependence := by
  refine ⟨length_streamEnc, fun _ _ _ _ => length_streamDec_bounds, fun P Q K r k hlen hsame i hi => ?_,
    fun P Q K r i k hi hk hpad => ?_⟩
  · by_cases hlt : i < blockCount P.length
    · rw [chunk_streamEnc K r hlt, chunk_streamEnc K r (hlen ▸ hlt), hsame i hi]
    · have hend : 128 * blockCount P.length ≤ 128 * i := by omega
      rw [chunk_of_length_le ((length_streamEnc P K r).trans_le hend),
        chunk_of_length_le ((length_streamEnc Q K r).trans_le (hlen ▸ hend))]
  · rw [chunk_streamEnc K r hi, chunk_streamEnc K r hk, hpad]

/-- The bytes of the last block, all of them if there is none. -/
def lastBlock (P : List Byte) : List Byte := P.drop (128 * (blockCount P.length - 1))

theorem length_lastBlock_le (P : List Byte) : (lastBlock P).length ≤ 128 := by
  rw [lastBlock, List.length_drop, blockCount]; omega

theorem getLast?_lastBlock (P : List Byte) : (lastBlock P).getLast? = P.getLast? := by
  rw [lastBlock, List.getLast?_drop, blockCount]
  split
  · have hnil : P = [] := List.length_eq_zero_iff.1 (by omega)
    rw [hnil, List.getLast?_nil]
  · rfl

theorem streamDec_streamEnc (P : List Byte) (K : Byte) (r : RoundCount) :
    streamDec (streamEnc P K r) K r = some (P.take (128 * (blockCount P.length - 1)) ++ strip (pad (lastBlock P))) := by
  rcases P.eq_nil_or_concat with rfl | ⟨_, _, hP⟩
  · rw [strip_pad (length_lastBlock_le []), streamEnc_nil, streamDec_nil]; rfl
  · have hpos : 0 < P.length := by rw [hP]; simp
    obtain ⟨m, hm⟩ : ∃ m, blockCount P.length = m + 1 := ⟨blockCount P.length - 1, by unfold blockCount; omega⟩
    have hlast : chunk P m = lastBlock P := by
      have h := length_lastBlock_le P
      rw [lastBlock, hm, Nat.add_sub_cancel] at h ⊢
      rw [chunk_eq, List.take_of_length_le h]
    rw [streamDec_blocks K r (by rw [length_streamEnc, hm]), blockOf_streamEnc K r (by omega), hlast,
      decryptedBlocks_streamEnc K r (by unfold blockCount at hm; omega), hm]
    rfl

/-- Settles O33: the transforms cancel, the zeros of `Pad` are stripped, and with them the trailing zeros of `P`. -/
theorem streamRoundTripLosesTrailingZeros : Obligations.StreamRoundTripLosesTrailingZeros := by
  intro P K r
  refine ⟨streamDec_streamEnc P K r, ?_⟩
  have hsplit : P.take (128 * (blockCount P.length - 1)) ++ lastBlock P = P := List.take_append_drop _ _
  calc streamDec (streamEnc P K r) K r = some P
      ↔ (lastBlock P).rdropWhile (· == 0x00) = lastBlock P := by
        conv_lhs => rhs; rw [← hsplit]
        rw [streamDec_streamEnc, strip_pad (length_lastBlock_le P), Option.some.injEq, List.append_cancel_left_eq]
    _ ↔ P = [] ∨ ∃ b, P.getLast? = some b ∧ b ≠ 0x00 := by
        rw [rdropWhile_zeros_eq_self_iff, getLast?_lastBlock, List.getLast?_eq_none_iff]

end Sys2Proof.Machine
end

section
/-! CLAIMS of 43_stream.md sections 3 and 4: SENC and SDEC, served with input and room, complete (R175 to R177, R180). -/

namespace Sys2Proof.Machine

theorem exec_senc (r : RoundCount) (s : State) : exec (.senc (BitVec.ofNat 4 r.val)) s =
    .next (sencRun (.senc (BitVec.ofNat 4 r.val)) r (startStream s)).close :=
  congrArg _ (withRounds_legal r _ s _)

theorem exec_sdec (r : RoundCount) (s : State) : exec (.sdec (BitVec.ofNat 4 r.val)) s =
    .next (sdecRun (.sdec (BitVec.ofNat 4 r.val)) r (startStream s)).close :=
  congrArg _ (withRounds_legal r _ s _)

theorem blockCount_len_eq_zero (s : State) : blockCount s.len.toNat = 0 ↔ s.len = 0 := by
  have hzero : (0 : BitVec 32).toNat = 0 := rfl
  rw [← BitVec.toNat_inj, blockCount]; omega

/-- The state a stream command completes in, after all its blocks. -/
theorem complete_afterBlocks (s : State) (r : RoundCount) (dir : Direction) (out : List Byte) :
    complete (afterBlocks s r dir (blockCount s.len.toNat) out) = { s with
      blkCnt := BitVec.ofNat 26 (blockCount s.len.toNat),
      blkIdx := BitVec.ofNat 26 (blockCount s.len.toNat),
      blk := if s.len = 0 then s.blk
        else blockOf (s.din.take s.len.toNat) s.key r dir (blockCount s.len.toNat - 1),
      sk := if s.len = 0 then s.sk else subkey s.key r dir (r.val - 1),
      din := s.din.drop s.len.toNat,
      dout := s.dout ++ out,
      doutRoom := s.roomAfter out.length,
      busy := false, cur := none } := by
  have hmin : min s.len.toNat (128 * blockCount s.len.toNat) = s.len.toNat := by unfold blockCount; omega
  simp only [afterBlocks, complete, hmin, blockCount_len_eq_zero]

/-- Settles O31: the loops of both commands are left at once. -/
theorem emptyStreamTouchesNothing : Obligations.EmptyStreamTouchesNothing := by
  intro r s h
  have hleft : blocksLeft (startStream s) = 0 := (blocksLeft_startStream s).trans ((blockCount_len_eq_zero s).2 h)
  have hstart : complete (startStream s) = { s with blkCnt := 0, blkIdx := 0, busy := false, cur := none } := by
    rw [startStream, (blockCount_len_eq_zero s).2 h]; rfl
  rw [exec_senc, exec_sdec, sencRun_zero _ _ hleft, sdecRun_zero _ _ hleft, close_goOn, hstart]
  exact ⟨rfl, rfl⟩

/-- Settles O28: the loop over all blocks, each one served. -/
theorem sencPushesEncryptedStream : Obligations.SencPushesEncryptedStream := by
  intro r s hd hroom
  have hlen : (s.din.take s.len.toNat).length = s.len.toNat := List.length_take_of_le hd
  have hout : streamEnc (s.din.take s.len.toNat) s.key r =
      (List.range (blockCount s.len.toNat)).flatMap fun j =>
        (blockOf (s.din.take s.len.toNat) s.key r .encrypt j).list := by rw [streamEnc, hlen]
  rw [exec_senc, sencRun, blocksLeft_startStream, sencLoop_served _ _ _ _ le_rfl (by omega) hroom, ← hout, close_goOn,
    complete_afterBlocks, length_streamEnc, hlen, subkey_last_encrypt]

theorem roomAfter_roomAfter {s t : State} {a : Nat} (ht : t.doutRoom = s.roomAfter a) (b : Nat) :
    t.roomAfter b = s.roomAfter (a + b) := by
  rw [State.roomAfter, ht, State.roomAfter, State.roomAfter, Option.map_map]
  exact congrArg (Option.map · _) (funext fun n => Nat.sub_sub n a b)

/-- One more block, of which the bytes `bs` are pushed. -/
theorem afterBlocks_succ (s : State) (r : RoundCount) (dir : Direction) (k : Nat) (out bs : List Byte) :
    { afterBlocks s r dir k out with
      blk := blockOf (s.din.take s.len.toNat) s.key r dir k,
      sk := subkey s.key r dir (r.val - 1),
      din := (afterBlocks s r dir k out).din.drop (avail s.len.toNat k),
      dout := (afterBlocks s r dir k out).dout ++ bs,
      doutRoom := (afterBlocks s r dir k out).roomAfter bs.length,
      blkIdx := (afterBlocks s r dir k out).blkIdx + 1 } = afterBlocks s r dir (k + 1) (out ++ bs) := by
  rw [roomAfter_roomAfter (s := s) rfl]
  simp only [afterBlocks, List.drop_drop, min_add_avail, List.append_assoc, List.length_append, BitVec.ofNat_add,
    Nat.add_sub_cancel, Nat.succ_ne_zero, if_false]
  rfl

/-- SDEC's last turn, its block a full one: the stripped block is pushed. -/
theorem sdecRead_last (i : Instr) (r : RoundCount) (s : State) (m : Nat) (hm : s.len.toNat = 128 * (m + 1))
    (hd : s.len.toNat ≤ s.din.length)
    (hr : s.hasRoom (128 * m + stripLen (blockOf (s.din.take s.len.toNat) s.key r .decrypt m)) = true) :
    sdecRead i r 0 (afterFullBlocks s r .decrypt m) = .goOn (afterBlocks s r .decrypt (m + 1)
      (decryptedBlocks (s.din.take s.len.toNat) s.key r m ++
        strip (blockOf (s.din.take s.len.toNat) s.key r .decrypt m))) := by
  have hbc : blockCount s.len.toNat = m + 1 := by rw [hm, blockCount_mul]
  have hfull : avail s.len.toNat m = 128 := by unfold avail; omega
  have hblk := transform_din_afterFullBlocks r .decrypt s m
  have hidx : (afterFullBlocks s r .decrypt m).blkIdx.toNat = m := toNat_blkIdx_afterBlocks _ _ _ _ _ (by omega)
  have hcnt : (afterFullBlocks s r .decrypt m).blkCnt.toNat = blockCount s.len.toNat := toNat_startStream_blkCnt s
  have hpush : pushLen { afterFullBlocks s r .decrypt m with
      blk := blockOf (s.din.take s.len.toNat) s.key r .decrypt m } =
        stripLen (blockOf (s.din.take s.len.toNat) s.key r .decrypt m) := by
    rw [pushLen_eq hidx hcnt, if_pos hbc.symm]
  rw [hfull] at hblk
  rw [sdecRead_served]
  · rw [hblk, hpush, Nat.min_eq_left (stripLen_le _)]
    have hlen := length_strip (blockOf (s.din.take s.len.toNat) s.key r .decrypt m)
    have hnext := afterBlocks_succ s r .decrypt m (decryptedBlocks (s.din.take s.len.toNat) s.key r m)
      (strip (blockOf (s.din.take s.len.toNat) s.key r .decrypt m))
    rw [hfull, hlen] at hnext
    exact congrArg Flow.goOn hnext
  · rw [length_din_afterFullBlocks]; omega
  · rw [hblk, hpush]
    exact hasRoom_after hr (doutRoom_afterFullBlocks s r .decrypt m)

/-- Settles O29: the blocks before the last are pushed in full, the last one stripped. -/
theorem sdecPushesDecryptedStream : Obligations.SdecPushesDecryptedStream := by
  intro r s hmod hd
  by_cases h0 : s.len = 0
  · have hlen : s.len.toNat = 0 := by rw [h0]; rfl
    refine ⟨[], by rw [hlen, List.take_zero, streamDec_nil], fun _ => ?_⟩
    rw [(emptyStreamTouchesNothing r s h0).2]
    simp [h0, roomAfter_zero]
  · obtain ⟨m, hm⟩ : ∃ m, s.len.toNat = 128 * (m + 1) := by
      have hpos := mt (blockCount_len_eq_zero s).1 h0
      exact ⟨s.len.toNat / 128 - 1, by unfold blockCount at hpos; omega⟩
    have hbc : blockCount s.len.toNat = m + 1 := by rw [hm, blockCount_mul]
    have hdiv : s.len.toNat / 128 = blockCount s.len.toNat := by omega
    refine ⟨_, streamDec_blocks s.key r ((List.length_take_of_le hd).trans hm), fun hroom => ?_⟩
    rw [List.length_append, length_decryptedBlocks, length_strip] at hroom
    rw [exec_sdec_reaches r s m (by omega) (by omega) (hasRoom_mono hroom (by omega)),
      sdecRead_last _ _ _ _ hm hd hroom, goOn_andThen, hbc, Nat.sub_self, sdecLoop, close_goOn, hdiv, ← hbc,
      complete_afterBlocks, subkey_last_decrypt]

end Sys2Proof.Machine
end

section
/-! SUPPORT. A stream command whose host makes every transfer it waits for: it never stops at a port
(44_datamove_system.md R205, 70_reset_and_hazards.md R259). -/

namespace Sys2Proof.Machine

/-- A stream command has `k` blocks left, the first `m` of them read already. All output is accepted, and the bytes of
the blocks still to be read are offered. -/
structure Fed (k m : Nat) (s : State) : Prop where
  room : s.doutRoom = none
  left : blocksLeft s = k
  input : s.len.toNat ≤ 128 * (s.blkIdx.toNat + m) + s.din.length

/-- The command is over: it has completed or faulted (10_state.md R30). -/
def Over (s : State) : Prop := s.busy = false

theorem over_close {P : State → Prop} {f : Flow} (h : f.Sat P Over) : Over f.close := h.close fun _ _ => rfl

/-- A command stopped by the round check is over, and a legal count leaves it to the body. -/
theorem over_withRounds {r : BitVec 4} {i : Instr} {s : State} {body : RoundCount → State}
    (h : ∀ rc, Over (body rc)) : Over (withRounds r i s body) :=
  withRounds_sat (fun _ => rfl) fun rc _ => h rc

/-! ### The port loops -/

theorem loadBytes_goesOn {P Q : State → Prop} (p : Nat → Progress) {k : Nat} (j : Nat) {s : State}
    (hd : k ≤ s.din.length) (h : P { s with blk := setCells s.blk j (s.din.take k), din := s.din.drop k }) :
    (loadBytes p k j s).Sat P Q :=
  loadBytes_sat p k j s h fun hlt => absurd hd hlt.not_ge

theorem emitBytes_goesOn {P Q : State → Prop} (p : Nat → Progress) (bs : List Byte) (j : Nat) {s : State}
    (hr : s.hasRoom bs.length = true)
    (h : P { s with dout := s.dout ++ bs, doutRoom := s.roomAfter bs.length }) : (emitBytes p bs j s).Sat P Q := by
  rw [emitBytes_room p bs j s hr]; exact h

section
variable {k : Nat} {s : State}

/-- While a block is left, counting it does not overflow BLKIDX. -/
theorem toNat_blkIdx_succ (h : blocksLeft s = k + 1) : (s.blkIdx + 1).toNat = s.blkIdx.toNat + 1 := by
  unfold blocksLeft at h
  rw [BitVec.toNat_add]
  exact Nat.mod_eq_of_lt (by simp; omega)

theorem Fed.blockTransform {m : Nat} (h : Fed k m s) (dir : Direction) (r : RoundCount) :
    Fed k m (blockTransform dir r s) := by
  rw [blockTransform_eq]; exact ⟨h.room, h.left, h.input⟩

/-- A block is read from input that is offered: its `n` bytes, or what is left of them. -/
theorem Fed.loadBytes (h : Fed k 0 s) (p : Nat → Progress) {n : Nat} (j : Nat) (hn : n ≤ 128)
    (hd : n ≤ s.din.length) : (loadBytes p n j s).Sat (Fed k 1) Over := by
  refine loadBytes_goesOn p j hd ⟨h.room, h.left, ?_⟩
  have hin := h.input
  simp only [List.length_drop]; omega

/-- A block is written to a host that accepts it, and the next one follows. -/
theorem Fed.writeBlock (h : Fed (k + 1) 1 s) (p : Nat → Progress) (n j : Nat) :
    ((emitBlk p n j s).andThen nextBlock).Sat (Fed k 0) Over := by
  refine Flow.Sat.andThen (P := Fed (k + 1) 1) (emitBytes_goesOn p _ j (hasRoom_none _ h.room) ?_) fun t ht => ?_
  · exact ⟨by simp [State.roomAfter, h.room], h.left, h.input⟩
  · exact ⟨ht.room, blocksLeft_nextBlock ht.left, by simpa only [toNat_blkIdx_succ ht.left] using ht.input⟩

/-! ### The phases and the loops of SENC and SDEC -/

section
variable {i : Instr} {r : RoundCount}

theorem Fed.sencTransform (h : Fed (k + 1) 1 s) : (sencTransform i r s).Sat (Fed k 0) Over :=
  have hz : Fed (k + 1) 1 (zeroRest s) := ⟨h.room, h.left, h.input⟩
  (hz.blockTransform .encrypt r).writeBlock _ _ _

theorem Fed.sdecTransform (h : Fed (k + 1) 1 s) : (sdecTransform i r s).Sat (Fed k 0) Over :=
  (h.blockTransform .decrypt r).writeBlock _ _ _

theorem Fed.sencRead (h : Fed (k + 1) 0 s) (j : Nat) (hd : availNow s - j ≤ s.din.length) :
    (sencRead i r j s).Sat (Fed k 0) Over :=
  (h.loadBytes _ j ((Nat.sub_le _ _).trans (avail_le _ _)) hd).andThen fun _ => Fed.sencTransform

theorem Fed.sdecRead (h : Fed (k + 1) 0 s) (j : Nat) (hd : 128 - j ≤ s.din.length) :
    (sdecRead i r j s).Sat (Fed k 0) Over :=
  (h.loadBytes _ j (Nat.sub_le _ _) hd).andThen fun _ => Fed.sdecTransform

/-- The input of the next block is offered. -/
theorem Fed.availNow_le (h : Fed k 0 s) : availNow s ≤ s.din.length := by
  have hin := h.input
  unfold availNow avail; omega

theorem Fed.sencLoop (h : Fed k 0 s) : (sencLoop i r k s).Sat (Fed 0 0) Over := by
  induction k generalizing s with
  | zero => exact h
  | succ k ih => exact (h.sencRead 0 h.availNow_le).andThen fun _ => ih

/-- The top of SDEC's loop body: a short block faults, and a full one is offered. -/
theorem Fed.sdecBody (h : Fed (k + 1) 0 s) : (sdecBody i r s).Sat (Fed k 0) Over := by
  unfold Machine.sdecBody
  split
  case isTrue => rfl
  case isFalse hfull => exact h.sdecRead 0 (by have := h.availNow_le; omega)

theorem Fed.sdecLoop (h : Fed k 0 s) : (sdecLoop i r k s).Sat (Fed 0 0) Over := by
  induction k generalizing s with
  | zero => exact h
  | succ k ih => exact h.sdecBody.andThen fun _ => ih

theorem Fed.sencRun (h : Fed k 0 s) : (sencRun i r s).Sat (Fed 0 0) Over := by
  rw [Machine.sencRun, h.left]; exact h.sencLoop

theorem Fed.sdecRun (h : Fed k 0 s) : (sdecRun i r s).Sat (Fed 0 0) Over := by
  rw [Machine.sdecRun, h.left]; exact h.sdecLoop

end

end

end Sys2Proof.Machine
end

section
/-! CLAIMS of 44_datamove_system.md section 2 (R205) and 70_reset_and_hazards.md section 4 (R259): a command whose host
makes every transfer it waits for is over in one step. -/

namespace Sys2Proof.Machine

section
variable {s : State}

theorem ldblkFrom_over (hblock : 128 ≤ s.din.length) (j : Nat) : Over (ldblkFrom j s).close :=
  over_close (loadBytes_goesOn (P := fun _ => True) _ j (by omega) trivial)

theorem stblkFrom_over (hroom : s.doutRoom = none) (j : Nat) : Over (stblkFrom j s).close :=
  over_close (emitBytes_goesOn (P := fun _ => True) _ _ j (hasRoom_none _ hroom) trivial)

theorem stskPush_over (hroom : s.doutRoom = none) : Over (stskPush s).close :=
  over_close (emitBytes_goesOn (P := fun _ => True) _ _ 0 (hasRoom_none _ hroom) trivial)

end

section
variable {s : State} (hroom : s.doutRoom = none) (hlen : s.len.toNat ≤ s.din.length)
include hroom hlen

theorem fed_startStream : Fed (blocksLeft (startStream s)) 0 (startStream s) :=
  ⟨hroom, rfl, by simpa using hlen⟩

/-- A stream command in progress, whether it has still to read its block or has read it. -/
theorem fed_of_streaming (hs : Streaming 1 s) : ∃ k, ∀ m, Fed (k + 1) m s := by
  obtain ⟨-, -, hleft⟩ := hs
  exact ⟨blocksLeft s - 1, fun m => ⟨hroom, by unfold blocksLeft; omega, by omega⟩⟩

theorem resumeSenc_over (hs : Streaming 1 s) (p : Progress) (r : RoundCount) : Over (resumeSenc p r s).close := by
  obtain ⟨k, hfed⟩ := fed_of_streaming hroom hlen hs
  refine over_close (Flow.Sat.andThen (P := Fed k 0) ?_ fun _ => Fed.sencRun)
  split
  · exact (hfed 0).sencRead _ ((Nat.sub_le _ _).trans (hfed 0).availNow_le)
  · exact (hfed 1).sencTransform
  · exact (hfed 1).writeBlock _ _ _

variable (hblock : 128 ≤ s.din.length)
include hblock

/-- A command just accepted, command by command. -/
theorem exec_over {i : Instr} {t : State} (h : exec i s = .next t) : Over t := by
  cases i with
  | nop | kgen n | round | swap | lenl n | lenh b => cases h; rfl
  | benc r | bdec r => cases h; exact over_withRounds fun _ => rfl
  | ldblk => cases h; exact ldblkFrom_over hblock 0
  | stblk => cases h; exact stblkFrom_over hroom 0
  | stsk => cases h; exact stskPush_over hroom
  | senc r => cases h; exact over_withRounds fun _ => over_close (fed_startStream hroom hlen).sencRun
  | sdec r => cases h; exact over_withRounds fun _ => over_close (fed_startStream hroom hlen).sdecRun

theorem resumeSdec_over (hs : Streaming 1 s) (p : Progress) (r : RoundCount) : Over (resumeSdec p r s).close := by
  obtain ⟨k, hfed⟩ := fed_of_streaming hroom hlen hs
  refine over_close (Flow.Sat.andThen (P := Fed k 0) ?_ fun _ => Fed.sdecRun)
  split
  · exact (hfed 0).sdecRead _ (by omega)
  · exact (hfed 1).sdecTransform
  · exact (hfed 1).writeBlock _ _ _

/-- A command in progress, command by command. -/
theorem resume_over {p : Progress} (hs : Running s) (hc : s.cur = some p) (hp : progressOk p s = true) :
    Over (resume s) := by
  obtain ⟨i, ph, j, n⟩ := p
  rw [resume, hc]
  cases i with
  | ldblk => exact ldblkFrom_over hblock _
  | stblk => exact stblkFrom_over hroom _
  | stsk => exact stskPush_over hroom
  | senc r =>
    obtain ⟨-, hstream, -⟩ := (progressOk_senc hs).1 hp
    exact over_withRounds fun _ => resumeSenc_over hroom hlen hstream _ _
  | sdec r =>
    obtain ⟨-, hstream, -⟩ := (progressOk_sdec hs).1 hp
    exact over_withRounds fun _ => resumeSdec_over hroom hlen hblock hstream _ _
  | nop | kgen _ | round | swap | benc _ | bdec _ | lenl _ | lenh _ => exact absurd hp (by simp [progressOk])

end

/-- Settles O47: with every transfer served no port loop stops, so a command ends only by completing or by a fault. -/
theorem commandsTerminateWhenServed : Obligations.CommandsTerminateWhenServed := by
  constructor
  · intro i s hroom hblock hlen
    obtain ⟨t, h⟩ := exec_answers_next i s
    exact ⟨t, h, exec_over hroom hlen hblock h⟩
  · intro s hinv hrst hbusy hroom hblock hlen
    have hhalt : s.halt = false := by simpa [hbusy] using hinv.notBusyAndHalted
    obtain ⟨p, hc⟩ := Option.isSome_iff_exists.1 (hinv.busyHoldsCommand.symm.trans hbusy)
    exact ⟨_, step_of_busy hrst hhalt hbusy,
      resume_over hroom hlen hblock (running_of_inv hinv hhalt) hc (hinv.progress p hc)⟩

end Sys2Proof.Machine
end

section
/-! CLAIMS of 44_datamove_system.md section 1: NOP, LDBLK, STBLK and STSK (R200 to R203). -/

namespace Sys2Proof.Machine

/-- Settles O35: NOP's meaning is its completion. -/
theorem nopOnlyCompletes : Obligations.NopOnlyCompletes := fun _ => rfl

/-- Settles O36: the reading loop runs to its end and leaves no cell of the old block. -/
theorem ldblkLoadsInAscendingOrder : Obligations.LdblkLoadsInAscendingOrder := by
  intro s hd
  refine ⟨_, setCells_all (s.din.take 128) s.blk (List.length_take_of_le hd), ?_⟩
  rw [exec, execLdblk, ldblkFrom, loadBytes_enough _ _ _ _ hd]
  rfl

/-- Settles O39: the reading loop takes the bytes offered and waits for the next. -/
theorem ldblkWaitsForInput : Obligations.LdblkWaitsForInput := by
  intro s hd
  refine ⟨setCells s.blk 0 s.din, by rw [list_setCells _ _ _ (by omega)]; simp, ?_⟩
  rw [exec, execLdblk, ldblkFrom, loadBytes_short _ _ _ _ hd, Nat.zero_add]
  rfl

/-- Settles O37: the writing loop over all 128 cells. -/
theorem stblkPushesInAscendingOrder : Obligations.StblkPushesInAscendingOrder := by
  intro s hroom
  have hout : (s.blk.list.take 128).drop 0 = s.blk.list := s.blk.take_all
  rw [exec, execStblk, stblkFrom, emitBlk, hout, emitBytes_room _ _ _ _ (by rwa [s.blk.size]), s.blk.size]
  rfl

/-- Settles O38: the writing loop over the one byte SK. -/
theorem stskPushesSubkey : Obligations.StskPushesSubkey := by
  intro s hroom
  rw [exec, execStsk, stskPush, emitBytes_room _ _ _ _ hroom]
  rfl

end Sys2Proof.Machine
end

section
/-! CLAIMS of 60_exceptions.md: fault entry (R228), ROUNDS_RANGE (R222), and SDEC's FORMAT after the complete blocks
(R223, R229). -/

namespace Sys2Proof.Machine

theorem waitsIn_of_halt {s : State} (h : s.halt = true) (ph : Phase) : waitsIn ph s = false := by
  simp [waitsIn, h]

/-- Settles O54: fault entry fault by fault, and the signals and the step of a halted engine. -/
theorem faultEntryHaltsUntilReset : Obligations.FaultEntryHaltsUntilReset := by
  refine ⟨fun f info s => by cases f <;> rfl, fun s h => ?_⟩
  exact ⟨by simp [cmdReady, State.idle, h], waitsIn_of_halt h .reading, waitsIn_of_halt h .writing,
    fun hr => step_of_halt hr h⟩

/-- Settles O22: with such a count none of the four commands is well-formed. -/
theorem illegalRoundCountsOnlyRaise : Obligations.IllegalRoundCountsOnlyRaise := by
  intro r s hr i hi
  have hwf : i.wellFormed = legalRounds r := by
    simp only [List.mem_cons, List.not_mem_nil, or_false] at hi
    rcases hi with rfl | rfl | rfl | rfl <;> rfl
  exact exec_illFormed (by rw [hwf, legalRounds_iff]; omega) s

/-- A block depends only on the input up to its end. -/
theorem blockOf_take (C : List Byte) (K : Byte) (r : RoundCount) (dir : Direction) {i n : Nat}
    (h : 128 * (i + 1) ≤ n) : blockOf (C.take n) K r dir i = blockOf C K r dir i := by
  rw [blockOf, blockOf, chunk_eq, chunk_eq, List.drop_take, List.take_take, Nat.min_eq_left (by omega)]

theorem decryptedBlocks_take (C : List Byte) (K : Byte) (r : RoundCount) {q n : Nat} (h : 128 * q ≤ n) :
    decryptedBlocks (C.take n) K r q = decryptedBlocks C K r q := by
  rw [decryptedBlocks, decryptedBlocks, List.flatMap_def, List.flatMap_def]
  refine congrArg _ (List.map_congr_left fun i hi => ?_)
  have hiq : i < q := List.mem_range.1 hi
  rw [blockOf_take C K r .decrypt (by omega)]

theorem blockCount_partial {n : Nat} (h : n % 128 ≠ 0) : blockCount n = n / 128 + 1 := by unfold blockCount; omega

/-- SDEC raises FORMAT at the short block, after the complete blocks before it (43_stream.md R176). -/
theorem exec_sdec_short (r : RoundCount) (s : State) (hmod : s.len.toNat % 128 ≠ 0)
    (hd : 128 * (s.len.toNat / 128) ≤ s.din.length) (hroom : s.hasRoom (128 * (s.len.toNat / 128)) = true) :
    exec (.sdec (BitVec.ofNat 4 r.val)) s = .next (raise .format (BitVec.ofNat 32 (s.len.toNat % 128))
      (afterFullBlocks s r .decrypt (s.len.toNat / 128))) := by
  have hcount := blockCount_partial hmod
  have hshort : avail s.len.toNat (s.len.toNat / 128) = s.len.toNat % 128 := by unfold avail; omega
  rw [exec_sdec, sdecRun, blocksLeft_startStream, hcount, sdecLoop_add,
    sdecLoop_served _ _ _ _ (by omega) hd hroom, goOn_andThen, sdecLoop, sdecBody,
    availNow_afterBlocks _ _ _ _ _ (by omega), hshort, if_pos (by omega), stop_andThen, close_stop]
  rfl

/-- Settles O30: the counters stand at the short block, and none of the complete blocks reads a byte of it. -/
theorem sdecFaultsOnShortBlock : Obligations.SdecFaultsOnShortBlock := by
  intro r s hmod hd hroom
  have hcount := blockCount_partial hmod
  have hmin : min s.len.toNat (128 * (s.len.toNat / 128)) = 128 * (s.len.toNat / 128) := by omega
  have hout : transformedBlocks (s.din.take s.len.toNat) s.key r .decrypt (s.len.toNat / 128) =
      decryptedBlocks (s.din.take (128 * (s.len.toNat / 128))) s.key r (s.len.toNat / 128) :=
    (decryptedBlocks_take _ _ _ (by omega)).trans (decryptedBlocks_take _ _ _ le_rfl).symm
  have hblk : (if s.len.toNat < 128 then s.blk
        else blockOf (s.din.take s.len.toNat) s.key r .decrypt (s.len.toNat / 128 - 1)) =
      if s.len.toNat < 128 then s.blk
        else blockOf (s.din.take (128 * (s.len.toNat / 128))) s.key r .decrypt (s.len.toNat / 128 - 1) :=
    ite_congr rfl (fun _ => rfl) fun _ =>
      (blockOf_take _ _ _ _ (by omega)).trans (blockOf_take _ _ _ _ (by omega)).symm
  rw [exec_sdec_short r s hmod hd hroom]
  simp only [raise, afterFullBlocks, afterBlocks, hcount, hmin, hout, length_decryptedBlocks,
    subkey_last_decrypt, Nat.div_eq_zero_iff_lt (show 0 < 128 by decide), hblk]
  rfl

end Sys2Proof.Machine
end

section
/-! SUPPORT. Where a command's pseudocode can fault: nowhere but in the round check (60_exceptions.md R222) and at the
top of SDEC's loop body (R223). -/

namespace Sys2Proof.Machine

/-- Neither where the pseudocode `f` goes on nor where it stops is the engine halted: it raises no fault. -/
abbrev Flow.Faultless (f : Flow) : Prop := f.Sat (fun t => t.halt = false) fun t => t.halt = false

/-- The only fault that the pseudocode `f` raises is FORMAT. -/
abbrev Flow.FormatOnly (f : Flow) : Prop := f.Sat (fun t => t.halt = false) fun t => t.halt = true → t.err = 3

theorem Flow.Faultless.formatOnly {f : Flow} (h : f.Faultless) : f.FormatOnly := by
  cases f with
  | goOn t => exact h
  | stop t => exact fun ht => absurd (ht.symm.trans h) (by decide)

theorem Flow.Faultless.close {f : Flow} (h : f.Faultless) : f.close.halt = false := Flow.Sat.close h fun _ ht => ht

theorem Flow.FormatOnly.close {f : Flow} (h : f.FormatOnly) : f.close.halt = true → f.close.err = 3 :=
  Flow.Sat.close h fun _ ht hc => absurd (hc.symm.trans ht) (by decide)

section
variable {s : State} (h : s.halt = false)
include h

theorem loadBytes_faultless (p : Nat → Progress) (k j : Nat) : (loadBytes p k j s).Faultless :=
  loadBytes_sat p k j s h fun _ => h

theorem emitBytes_faultless (p : Nat → Progress) (bs : List Byte) (j : Nat) : (emitBytes p bs j s).Faultless :=
  emitBytes_sat p bs j s h fun _ _ => h

theorem blockTransform_not_halted (dir : Direction) (rc : RoundCount) : (blockTransform dir rc s).halt = false := by
  rw [blockTransform_eq]; exact h

end

/-! ### The phases and the loops of SENC and SDEC -/

section
variable {i : Instr} {rc : RoundCount} {s : State} (h : s.halt = false)
include h

theorem sencWrite_faultless (j : Nat) : (sencWrite i j s).Faultless :=
  (emitBytes_faultless h _ _ _).andThen fun _ ht => ht

theorem sencTransform_faultless : (sencTransform i rc s).Faultless :=
  sencWrite_faultless (blockTransform_not_halted (s := zeroRest s) h _ _) 0

theorem sencRead_faultless (j : Nat) : (sencRead i rc j s).Faultless :=
  (loadBytes_faultless h _ _ _).andThen fun _ => sencTransform_faultless

theorem sencLoop_faultless (k : Nat) : (sencLoop i rc k s).Faultless := by
  induction k generalizing s with
  | zero => exact h
  | succ k ih => exact (sencRead_faultless h 0).andThen fun _ => ih

theorem resumeSenc_faultless (p : Progress) : (resumeSenc p rc s).Faultless := by
  refine Flow.Sat.andThen (P := fun t => t.halt = false) ?_ fun _ ht => sencLoop_faultless ht _
  split
  · exact sencRead_faultless h _
  · exact sencTransform_faultless h
  · exact sencWrite_faultless h _

theorem sdecWrite_faultless (n j : Nat) : (sdecWrite i n j s).Faultless :=
  (emitBytes_faultless h _ _ _).andThen fun _ ht => ht

theorem sdecTransform_faultless : (sdecTransform i rc s).Faultless :=
  sdecWrite_faultless (blockTransform_not_halted h _ _) _ 0

theorem sdecRead_faultless (j : Nat) : (sdecRead i rc j s).Faultless :=
  (loadBytes_faultless h _ _ _).andThen fun _ => sdecTransform_faultless

/-- The one place past the round check where a fault is raised. -/
theorem sdecBody_formatOnly : (sdecBody i rc s).FormatOnly := by
  unfold sdecBody
  split
  · exact fun _ => rfl
  · exact (sdecRead_faultless h 0).formatOnly

theorem sdecLoop_formatOnly (k : Nat) : (sdecLoop i rc k s).FormatOnly := by
  induction k generalizing s with
  | zero => exact h
  | succ k ih => exact (sdecBody_formatOnly h).andThen fun _ => ih

theorem resumeSdec_formatOnly (p : Progress) : (resumeSdec p rc s).FormatOnly := by
  refine Flow.Sat.andThen (P := fun t => t.halt = false) ?_ fun _ ht => sdecLoop_formatOnly ht _
  split
  · exact (sdecRead_faultless h _).formatOnly
  · exact (sdecTransform_faultless h).formatOnly
  · exact (sdecWrite_faultless h _ _).formatOnly

end

end Sys2Proof.Machine
end

section
/-! CLAIMS of 60_exceptions.md section 1 (R220): no condition faults but the three of the table. -/

namespace Sys2Proof.Machine

/-- If the command `i`, run from `s`, has faulted in `t`, then for one of the table's causes: ROUNDS_RANGE with its own
word for an illegal round count (R222), or FORMAT for SDEC, with LEN as it was (R223). -/
def FaultsByTable (i : Instr) (s t : State) : Prop :=
  t.halt = true →
    (i.wellFormed = false ∧ t = raise .roundsRange (encode i) s) ∨ (t.err = 3 ∧ t.len = s.len ∧ ∃ r, i = .sdec r)

section
variable {i : Instr} {s t : State}

theorem faultsByTable_of_not_halted (h : t.halt = false) : FaultsByTable i s t :=
  fun ht => absurd (ht.symm.trans h) (by decide)

theorem faultsByTable_withRounds {r : BitVec 4} {body : RoundCount → State} (hi : i.wellFormed = legalRounds r)
    (hbody : ∀ rc, FaultsByTable i s (body rc)) : FaultsByTable i s (withRounds r i s body) :=
  withRounds_sat (fun hr _ => .inl ⟨hi.trans hr, rfl⟩) fun rc _ => hbody rc

theorem faultsByTable_sdec {r : BitVec 4} {f : Flow} (hf : f.FormatOnly)
    (hframe : Frame.Along (accessRow (.sdec r)) s f) : FaultsByTable (.sdec r) s f.close :=
  fun ht => .inr ⟨hf.close ht, (Frame.close hframe).len rfl, r, rfl⟩

/-- A command just accepted: the access matrix lets only the format-R commands fault (10_state.md R36). -/
theorem exec_faultsByTable (h : s.halt = false) (he : exec i s = .next t) : FaultsByTable i s t := by
  cases i with
  | nop | kgen n | round | swap | ldblk | stblk | stsk | lenl n | lenh b =>
    obtain ⟨-, -, hhalt⟩ := (exec_frame _ he).fault rfl
    exact faultsByTable_of_not_halted (hhalt.trans h)
  | benc r | bdec r =>
    cases he
    exact faultsByTable_withRounds rfl fun rc => faultsByTable_of_not_halted (blockTransform_not_halted h _ rc)
  | senc r =>
    cases he
    exact faultsByTable_withRounds rfl fun _ =>
      faultsByTable_of_not_halted (sencLoop_faultless (s := startStream s) h _).close
  | sdec r =>
    cases he
    exact faultsByTable_withRounds rfl fun _ =>
      faultsByTable_sdec (sdecLoop_formatOnly (s := startStream s) h _) (sdecLoop_frame _ (.setCounters rfl _ _))

/-- A command in progress. -/
theorem resume_faultsByTable {p : Progress} (h : s.halt = false) (hc : s.cur = some p) :
    FaultsByTable p.command s (resume s) := by
  obtain ⟨i, ph, j, n⟩ := p
  rw [resume, hc]
  cases i with
  | ldblk => exact faultsByTable_of_not_halted (loadBytes_faultless h _ _ _).close
  | stblk | stsk => exact faultsByTable_of_not_halted (emitBytes_faultless h _ _ _).close
  | senc r => exact faultsByTable_withRounds rfl fun _ => faultsByTable_of_not_halted (resumeSenc_faultless h _).close
  | sdec r =>
    exact faultsByTable_withRounds rfl fun _ => faultsByTable_sdec (resumeSdec_formatOnly h _) (resumeSdec_frame _)
  | nop | kgen _ | round | swap | benc _ | bdec _ | lenl _ | lenh _ => exact faultsByTable_of_not_halted h

end

/-- A command in progress has passed the round check (10_state.md R32). -/
theorem wellFormed_of_progressOk {p : Progress} {s : State} (hs : Running s) (h : progressOk p s = true) :
    p.command.wellFormed = true := by
  obtain ⟨i, ph, j, n⟩ := p
  cases i with
  | senc r => exact ((progressOk_senc hs).1 h).1
  | sdec r => exact ((progressOk_sdec hs).1 h).1
  | benc _ | bdec _ => exact absurd h (by simp [progressOk])
  | nop | kgen _ | round | swap | ldblk | stblk | stsk | lenl _ | lenh _ => rfl

theorem faultOk_format_iff {s : State} (herr : s.err = 3) : faultOk s = true ↔
    s.errInfo.toNat = s.len.toNat % 128 ∧ s.errInfo ≠ 0 ∧ s.blkIdx.toNat = s.len.toNat / 128 ∧
      s.blkCnt.toNat = s.len.toNat / 128 + 1 := by
  simp [faultOk, herr, and_assoc]

/-- ERRINFO after FORMAT (R223). -/
theorem errInfo_of_format {s : State} (h : Inv s) (herr : s.err = 3) :
    s.len.toNat % 128 ≠ 0 ∧ s.errInfo = BitVec.ofNat 32 (s.len.toNat % 128) := by
  obtain ⟨hinfo, hne, -, -⟩ := (faultOk_format_iff herr).1 h.fault
  rw [← hinfo, BitVec.ofNat_toNat, BitVec.setWidth_eq]
  exact ⟨fun h0 => hne (BitVec.eq_of_toNat_eq h0), rfl⟩

/-- Settles O55: a word that spells no command faults with that word, a command faults by the table, and the invariant
gives FORMAT's ERRINFO. -/
theorem faultsOnlyWhereTheTableSays : Obligations.FaultsOnlyWhereTheTableSays := by
  intro s t hinv hrst hhalt hstep ht
  have hformat : t.err = 3 → t.len = s.len →
      s.len.toNat % 128 ≠ 0 ∧ t.errInfo = BitVec.ofNat 32 (s.len.toNat % 128) := fun herr hlen =>
    hlen ▸ errInfo_of_format (stepKeepsInvariant s t hinv hstep) herr
  rcases hb : s.busy with _ | _
  case true =>
    obtain ⟨p, hc⟩ := Option.isSome_iff_exists.1 (hinv.busyHoldsCommand.symm.trans hb)
    rw [step_of_busy hrst hhalt hb] at hstep
    cases hstep
    rcases resume_faultsByTable hhalt hc ht with ⟨hill, -⟩ | ⟨herr, hlen, r, hi⟩
    · have hwf := wellFormed_of_progressOk (running_of_inv hinv hhalt) (hinv.progress p hc)
      exact absurd (hwf.symm.trans hill) (by decide)
    · obtain ⟨hmod, hinfo⟩ := hformat herr hlen
      exact .inr (.inr ⟨herr, hmod, hinfo, r, .inr ⟨rfl, p, hc, hi⟩⟩)
  case false =>
    have hready : cmdReady s = true := (cmdReady_iff s).2 ⟨hrst, hb, hhalt⟩
    rcases hc : s.cmd with _ | ⟨w, ws⟩
    · rw [step_of_ready_nil hready hc] at hstep
      cases hstep
      exact absurd (ht.symm.trans hhalt) (by decide)
    rw [step_of_ready_cons hready hc] at hstep
    rcases hd : decode w with e | i
    · rw [execWord_error hd] at hstep
      cases hstep
      exact .inl ⟨rfl, rfl, w, ws, e, rfl, hd, rfl⟩
    rw [execWord_ok hd] at hstep
    have hw : encode i = w := encodeOfDecode w i hd
    rcases exec_faultsByTable (s := accept ws s) hhalt hstep ht with ⟨hill, rfl⟩ | ⟨herr, hlen, r, rfl⟩
    · exact .inr (.inl ⟨rfl, rfl, w, ws, i, rfl, hd, hill, hw⟩)
    · obtain ⟨hmod, hinfo⟩ := hformat herr hlen
      exact .inr (.inr ⟨herr, hmod, hinfo, r, .inl ⟨rfl, ws, by rw [hw]⟩⟩)

end Sys2Proof.Machine
end

section
/-! CLAIMS of 70_reset_and_hazards.md section 1 (R250 to R252): the edge with `rst = 1`. -/

namespace Sys2Proof.Machine

theorem cmdReady_of_rst {s : State} (h : s.rst = true) : cmdReady s = false := by
  simp [cmdReady, h]

theorem waitsIn_of_rst {s : State} (h : s.rst = true) (ph : Phase) : waitsIn ph s = false := by
  simp [waitsIn, h]

/-- Settles O56: such a step is `resetEngine`, which writes the reset values and nothing else, and no port signal is
driven in reset. -/
theorem resetEdgeZeroesEngine : Obligations.ResetEdgeZeroesEngine := by
  intro s h
  have hstep : step s = .next (resetEngine s) := step_of_rst h
  exact ⟨hstep, cmdReady_of_rst h, waitsIn_of_rst h .reading, waitsIn_of_rst h .writing⟩

end Sys2Proof.Machine
end
